-- ==== Sys2Proof/Word.lean ====
section
/-! DEFINITION. The one word type of the LS-8 core: every register value, memory cell, address, pc value
and immediate is an unsigned 8-bit number (00_scope.md R13; 92_eei_decisions.md D3, UNVERIFIED, log 19). -/

namespace Sys2Proof

/-- An 8-bit value, `0` to `255` (R13). Its `+` and `-` are the spec's `+8` and `-8`. -/
abbrev Byte := BitVec 8

end Sys2Proof
end

