-- ==== Sys2Proof/Syntax.lean ====
section
/-! DEFINITION. The eleven instructions of the opcode table (30_encoding.md R91, R94), one constructor each.
Operands are the operand bytes themselves: a register operand is one whole byte (R92), and a byte that names no
register still makes an instruction, the one that stops the core with BAD_REGISTER (R266). -/

namespace Sys2Proof

/-- An instruction with its operand bytes `a` and `b` in encoding order (R94). -/
inductive Instr
  /-- LDI rA, imm: load immediate (R130). -/
  | ldi (rA imm : Byte)
  /-- PRN rA: print register (R131). -/
  | prn (rA : Byte)
  /-- HLT: halt (R132). -/
  | hlt
  /-- ADD rA, rB (R161). -/
  | add (rA rB : Byte)
  /-- SUB rA, rB (R162). -/
  | sub (rA rB : Byte)
  /-- MUL rA, rB (R163). -/
  | mul (rA rB : Byte)
  /-- DIV rA, rB (R164). -/
  | div (rA rB : Byte)
  /-- PUSH rA (R200). -/
  | push (rA : Byte)
  /-- POP rA (R201). -/
  | pop (rA : Byte)
  /-- CALL rA (R230). -/
  | call (rA : Byte)
  /-- RET (R231). -/
  | ret
  deriving DecidableEq, Repr

end Sys2Proof
end

