-- ==== Sys2Proof/Decode.lean ====
section
/-! DEFINITION. The decoder and the encoder (30_encoding.md R90 to R103). The decoder compares the whole opcode
byte with the eleven rows of the opcode table (R95, R103) and rejects every other byte by name (R99). -/

namespace Sys2Proof

/-- The eleven mnemonics of the opcode table (R91). -/
inductive Mnemonic
  | ldi | prn | hlt | add | sub | mul | div | push | pop | call | ret
  deriving DecidableEq, Repr

/-- The three formats of R90: the opcode byte and 0, 1 or 2 operand bytes. -/
inductive Format
  | f0 | f1 | f2
  deriving DecidableEq, Repr

/-- How many operand bytes a format has (R90). -/
def Format.operandBytes : Format → Nat
  | .f0 => 0
  | .f1 => 1
  | .f2 => 2

/-! ### The fields of an opcode byte (R91, with bits 5 and 4 as 90_conflicts.md C1 settles them) -/

/-- Field `N`, bits 7:6: the number of operand bytes. -/
def opcodeN (op : Byte) : Nat := (op.extractLsb' 6 2).toNat

/-- Field `A`, bit 5: set for an ALU operation. -/
def opcodeA (op : Byte) : Bool := op.getLsbD 5

/-- Field `P`, bit 4: set for an instruction that sets the pc directly. -/
def opcodeP (op : Byte) : Bool := op.getLsbD 4

/-- Field `I`, bits 3:0: the instruction within its group. -/
def opcodeI (op : Byte) : BitVec 4 := op.extractLsb' 0 4

/-- An instruction's length, from the opcode byte alone: `N + 1` bytes (R96). -/
def instrLength (op : Byte) : Nat := opcodeN op + 1

/-! ### The opcode table -/

/-- One row of the opcode table: a byte selects the row when `byte AND mask = value` (R103). -/
structure OpcodeRow where
  mnemonic : Mnemonic
  format : Format
  mask : Byte
  value : Byte
  deriving DecidableEq, Repr

/-- The opcode table, bit patterns as R91 prints them. -/
def opcodeTable : List OpcodeRow :=
  [ ⟨.ldi,  .f2, 0xFF#8, 0b10000010#8⟩,
    ⟨.prn,  .f1, 0xFF#8, 0b01000111#8⟩,
    ⟨.hlt,  .f0, 0xFF#8, 0b00000001#8⟩,
    ⟨.add,  .f2, 0xFF#8, 0b10100000#8⟩,
    ⟨.sub,  .f2, 0xFF#8, 0b10100001#8⟩,
    ⟨.mul,  .f2, 0xFF#8, 0b10100010#8⟩,
    ⟨.div,  .f2, 0xFF#8, 0b10100011#8⟩,
    ⟨.push, .f1, 0xFF#8, 0b01000101#8⟩,
    ⟨.pop,  .f1, 0xFF#8, 0b01000110#8⟩,
    ⟨.call, .f1, 0xFF#8, 0b01010000#8⟩,
    ⟨.ret,  .f0, 0xFF#8, 0b00010001#8⟩ ]

/-- The row an opcode byte selects, if any (R95). -/
def decodeRow (op : Byte) : Option OpcodeRow :=
  opcodeTable.find? fun r => op &&& r.mask == r.value

/-! ### Decoding -/

/-- The instruction of a mnemonic with the bytes that stand where its operands would: an operand the format does
not have is not used (R94). -/
def Mnemonic.instr : Mnemonic → Byte → Byte → Instr
  | .ldi,  a, b => .ldi a b
  | .prn,  a, _ => .prn a
  | .hlt,  _, _ => .hlt
  | .add,  a, b => .add a b
  | .sub,  a, b => .sub a b
  | .mul,  a, b => .mul a b
  | .div,  a, b => .div a b
  | .push, a, _ => .push a
  | .pop,  a, _ => .pop a
  | .call, a, _ => .call a
  | .ret,  _, _ => .ret

/-- The instruction whose opcode byte is `op`, with `a` and `b` the two bytes after it; none where `op` is
illegal (R95, R99). -/
def decodeInstr (op a b : Byte) : Option Instr :=
  (decodeRow op).map fun r => r.mnemonic.instr a b

/-- Why a byte sequence is no instruction. -/
inductive DecodeError
  /-- The opcode byte is none of the eleven (R99). -/
  | unknownOpcode (op : Byte)
  /-- The sequence ends before the opcode's operand bytes do: a list has an end, the core's memory has none
  (DESIGN CHOICE, log 22). -/
  | truncated (op : Byte)
  /-- There is no byte at all (log 22). -/
  | empty
  deriving DecidableEq, Repr

/-- Decode the first instruction of a byte sequence and give back the rest: total on any bytes. -/
def decode : List Byte → Except DecodeError (Instr × List Byte)
  | [] => .error .empty
  | op :: rest =>
    match decodeRow op with
    | none => .error (.unknownOpcode op)
    | some r =>
      match r.format, rest with
      | .f0, rest => .ok (r.mnemonic.instr 0 0, rest)
      | .f1, a :: rest => .ok (r.mnemonic.instr a 0, rest)
      | .f2, a :: b :: rest => .ok (r.mnemonic.instr a b, rest)
      | _, _ => .error (.truncated op)

/-! ### Encoding -/

/-- The opcode byte of a mnemonic, in the hexadecimal of R103. -/
def Mnemonic.opcode : Mnemonic → Byte
  | .ldi  => 0x82#8
  | .prn  => 0x47#8
  | .hlt  => 0x01#8
  | .add  => 0xA0#8
  | .sub  => 0xA1#8
  | .mul  => 0xA2#8
  | .div  => 0xA3#8
  | .push => 0x45#8
  | .pop  => 0x46#8
  | .call => 0x50#8
  | .ret  => 0x11#8

/-- The mnemonic of an instruction. -/
def Instr.mnemonic : Instr → Mnemonic
  | .ldi _ _ => .ldi
  | .prn _ => .prn
  | .hlt => .hlt
  | .add _ _ => .add
  | .sub _ _ => .sub
  | .mul _ _ => .mul
  | .div _ _ => .div
  | .push _ => .push
  | .pop _ => .pop
  | .call _ => .call
  | .ret => .ret

/-- The opcode byte of an instruction. -/
def Instr.opcode (i : Instr) : Byte := i.mnemonic.opcode

/-- The operand bytes of an instruction, in encoding order (R90, R94). -/
def Instr.operands : Instr → List Byte
  | .ldi rA imm => [rA, imm]
  | .prn rA => [rA]
  | .hlt => []
  | .add rA rB => [rA, rB]
  | .sub rA rB => [rA, rB]
  | .mul rA rB => [rA, rB]
  | .div rA rB => [rA, rB]
  | .push rA => [rA]
  | .pop rA => [rA]
  | .call rA => [rA]
  | .ret => []

/-- The bytes of an instruction at increasing addresses (R65, R90). -/
def encode (i : Instr) : List Byte := i.opcode :: i.operands

/-! ### The opcode table's numbering of bits -/

/-- Byte `k` of an instruction whose bits are `w`, `nbits` of them and zeros above: byte 0 is the opcode, later
bytes count on from bit 8 (R65: increasing addresses). -/
def tableByte (nbits w k : Nat) : Byte := BitVec.ofNat 8 (w % 2 ^ nbits / 256 ^ k)

/-- The table word of a byte sequence: byte 0 is bits 7:0, later bytes count on. -/
def tableWord : List Byte → Nat
  | [] => 0
  | v :: rest => v.toNat + 256 * tableWord rest

/-- The instruction the decoder reads from a table word. -/
def decodeTableWord (nbits w : Nat) : Option Instr :=
  decodeInstr (tableByte nbits w 0) (tableByte nbits w 1) (tableByte nbits w 2)

end Sys2Proof
end

