-- ==== Sys2Proof/Config.lean ====
section
/-! DEFINITION. What is fixed for the machine: the implementation parameters of 00_scope.md R6, and the named
parameters of 92_eei_decisions.md (D4, D5, D7) at the values the spec decides. `PC_WRAP` (D2) has no constant:
log 4. -/

namespace Sys2Proof

/-- `REG_INDEX_MODE` (D4): what a register operand byte of 8 or more does. -/
inductive RegIndexMode
  /-- The instruction stops the core with BAD_REGISTER (R92, R266). -/
  | fault
  /-- The alternative D4 sets aside: the byte is reduced to its low three bits. -/
  | mask3
  deriving DecidableEq, Repr

/-- `SP_OPERAND_ORDER` (D5): when PUSH and CALL read a register operand. -/
inductive SpOperandOrder
  /-- The statements run in the order written (R15): after SP is updated. -/
  | asWritten
  /-- The alternative D5 sets aside: before SP is updated. -/
  | operandFirst
  deriving DecidableEq, Repr

namespace Config

/-- `NREG` (R6): eight registers, indices 0 to 7. -/
abbrev nreg : Nat := 8

/-- `SP_RESET` (R6): the initial value of register 7. -/
def spReset : Byte := 0xF4#8

/-- `MEM_SIZE` (R6): 256 cells. -/
abbrev memSize : Nat := 256

/-- `PC_RESET` (R6). -/
def pcReset : Byte := 0x00#8

/-- `LOAD_BASE` (R6): the address of the first image byte. -/
def loadBase : Byte := 0x00#8

/-- `DIV0_STATUS` (R6): the source asks for a non-zero status, D7 decides 1 (UNVERIFIED, log 8). -/
abbrev div0Status : Nat := 1

/-- `REG_INDEX_MODE` at the value D4 decides (UNVERIFIED, log 5). -/
def regIndexMode : RegIndexMode := .fault

/-- `SP_OPERAND_ORDER` at the value D5 decides (UNVERIFIED, log 6). -/
def spOperandOrder : SpOperandOrder := .asWritten

/-- `TRACE_ENABLED` (R6): "optional", so each implementation decides and no value is known here (log 13). -/
opaque traceEnabled : Bool

end Config

end Sys2Proof
end

