-- ==== Sys2Proof/Machine/State.lean ====
section
/-! DEFINITION. The whole state of the core as plain data (10_state.md): the register file, the pc, the memory,
the run state, the output log and the stop record; why a step can end without a next state; and the state right
after construction (R43, R300). R35, R40, R41 and R42 say there is nothing else. -/

namespace Sys2Proof.Machine

/-- The eight registers by name (R30, R101). -/
inductive Reg
  | r0 | r1 | r2 | r3 | r4 | r5 | r6 | r7
  deriving DecidableEq, Repr

/-- The register file `x[0..7]` (R30); `r7` is the one storage that `SP` and `x[7]` both name (R31). -/
structure RegFile where
  r0 : Byte
  r1 : Byte
  r2 : Byte
  r3 : Byte
  r4 : Byte
  r5 : Byte
  r6 : Byte
  r7 : Byte
  deriving DecidableEq, Repr

/-- The memory `M` (R39, R60): (address, byte) pairs in the canonical form of `Memory.wf` (Ops.lean), with addresses strictly
rising and no byte equal to what an unlisted address reads as. -/
abbrev Memory := List Host.Cell

/-- The run state (R36). -/
inductive RunState
  | running | stopped
  deriving DecidableEq, Repr

/-- The causes of a stop (R38, R261). -/
inductive StopCause
  /-- HLT, the normal end of a run (R132). -/
  | halt
  /-- An opcode byte outside the table (R99, R263). -/
  | unknownOpcode
  /-- DIV with a zero divisor (R164, R264). -/
  | divByZero
  /-- An ALU operation outside the four; no program reaches it (R168, R268). -/
  | unsupportedAlu
  /-- A register operand byte of 8 or more (R92, R266). -/
  | badRegister
  deriving DecidableEq, Repr

/-- The stop record (R38). `atPc` is the spec's `at`. -/
structure StopRecord where
  cause : StopCause
  opcode : Byte
  atPc : Byte
  status : Nat
  deriving DecidableEq, Repr

/-- The state of the core (10_state.md): `regs` is `x`, `mem` is `M`, `out` is `OUT` (oldest first, R37). -/
structure State where
  regs : RegFile
  pc : Byte
  mem : Memory
  run : RunState
  out : List Byte
  stop : Option StopRecord
  deriving DecidableEq, Repr

/-- Why the machine takes no step. -/
inductive Fault
  /-- Raised by `step` alone, in a state whose run state is STOPPED: it "takes no step" (R16). Safe: nothing is
  claimed after the end of a run. -/
  | stopped
  deriving DecidableEq, Repr

/-- Why the model gives no meaning. -/
inductive Refusal
  /-- Raised by an arm of `exec` whose instruction has no meaning yet; no arm is. Safe. -/
  | notModelled (mnemonic : String)
  /-- Raised by `launch` for an image of more than 256 bytes, which "has no run" (R7, R301, D9). Safe. -/
  | imageTooLong (length : Nat)
  deriving DecidableEq, Repr

/-- The register file after construction (R43): zeros, and SP at `SP_RESET`. -/
def RegFile.reset : RegFile := ⟨0, 0, 0, 0, 0, 0, 0, Config.spReset⟩

/-- The state after construction and before Load (R43, R300): memory all zero, so nothing is listed. -/
def State.reset : State where
  regs := RegFile.reset
  pc := Config.pcReset
  mem := []
  run := .running
  out := []
  stop := none

end Sys2Proof.Machine
end

