-- ==== Sys2Proof/Machine/Ops.lean ====
section
/-! DEFINITION. The primitives of 00_scope.md R14 over registers, pc, memory and output, and THE STOP TRANSITION
(60_exceptions.md R260), the one thing every exceptional condition of this core does. There is no handler and no
return from a stop (R269), so no operation beside it undoes one. -/

namespace Sys2Proof.Machine

/-! ### Registers -/

/-- `x[r]` (R14). -/
def RegFile.read (x : RegFile) : Reg → Byte
  | .r0 => x.r0
  | .r1 => x.r1
  | .r2 => x.r2
  | .r3 => x.r3
  | .r4 => x.r4
  | .r5 => x.r5
  | .r6 => x.r6
  | .r7 => x.r7

/-- `x[r] <- v` (R14). No register is hardwired (R30). -/
def RegFile.write (x : RegFile) (r : Reg) (v : Byte) : RegFile :=
  match r with
  | .r0 => { x with r0 := v }
  | .r1 => { x with r1 := v }
  | .r2 => { x with r2 := v }
  | .r3 => { x with r3 := v }
  | .r4 => { x with r4 := v }
  | .r5 => { x with r5 := v }
  | .r6 => { x with r6 := v }
  | .r7 => { x with r7 := v }

/-- The stack pointer is register 7, `SP_INDEX` of R6 (R31). -/
abbrev Reg.sp : Reg := .r7

/-- Read a register (R14, R33: every read is defined). -/
def State.readReg (s : State) (r : Reg) : Byte := s.regs.read r

/-- Write a register (R14). -/
def State.writeReg (s : State) (r : Reg) (v : Byte) : State := { s with regs := s.regs.write r v }

/-- `SP`, another name for `x[7]` (R14, R31). -/
abbrev State.sp (s : State) : Byte := s.readReg .sp

/-- `SP <- v` is `x[7] <- v` (R14, R31). -/
abbrev State.setSp (s : State) (v : Byte) : State := s.writeReg .sp v

/-! ### Memory -/

/-- What an address that is not listed reads as: the reset contents, 0x00 (R43). -/
def Memory.unlisted : Byte := 0x00#8

/-- The cells are at rising addresses from `lo` on, all inside the 256 cells, none holding `Memory.unlisted`. -/
def Memory.wfFrom (lo : Nat) : Memory → Bool
  | [] => true
  | (k, v) :: rest =>
    decide (lo ≤ k) && decide (k < Config.memSize) && decide (v ≠ Memory.unlisted) && Memory.wfFrom (k + 1) rest

/-- The canonical form: equal memories are equal lists. -/
def Memory.wf (m : Memory) : Bool := Memory.wfFrom 0 m

/-- The byte in cell `a`. -/
def Memory.read : Memory → Nat → Byte
  | [], _ => Memory.unlisted
  | (k, v) :: rest, a => if k = a then v else Memory.read rest a

/-- The memory that lists `v` at `a` in front of `rest`, or does not list `a` where `v` is the unlisted byte. -/
def Memory.cons (a : Nat) (v : Byte) (rest : Memory) : Memory :=
  if v = Memory.unlisted then rest else (a, v) :: rest

/-- Store `v` in cell `a`, keeping the canonical form. -/
def Memory.write : Memory → Nat → Byte → Memory
  | [], a, v => Memory.cons a v []
  | (k, w) :: rest, a, v =>
    if a < k then Memory.cons a v ((k, w) :: rest)
    else if a = k then Memory.cons a v rest
    else (k, w) :: Memory.write rest a v

/-- `MemRead(a, 1)`: the byte `M[a mod 256]`; an address is an 8-bit value, so it is already reduced (R61, R63). -/
def State.memRead (s : State) (a : Byte) : Byte := Memory.read s.mem a.toNat

/-- `MemWrite(a, 1, v)`: `M[a mod 256] <- v` and nothing else (R62). -/
def State.memWrite (s : State) (a v : Byte) : State := { s with mem := Memory.write s.mem a.toNat v }

/-! ### Program counter -/

/-- `pc +8 n`: all pc arithmetic is modulo 256 (R34, R63, D2; UNVERIFIED, log 4). -/
def pcPlus (pc : Byte) (n : Nat) : Byte := pc + BitVec.ofNat 8 n

/-- `pc <- t` (R14). -/
def State.setPc (s : State) (t : Byte) : State := { s with pc := t }

/-- `pc <- pc +8 n`, the advance past an instruction of `n` bytes (R97, R98). -/
def State.advancePc (s : State) (n : Nat) : State := s.setPc (pcPlus s.pc n)

/-! ### Output -/

/-- `Emit(v)`: append `v` to `OUT` (R8, R14, R37). -/
def State.emit (s : State) (v : Byte) : State := { s with out := s.out ++ [v] }

/-! ### The stop transition -/

/-- The numeric code of a cause (R261, D7: internal labels; log 8). -/
def StopCause.code : StopCause → Nat
  | .halt => 0
  | .unknownOpcode => 1
  | .divByZero => 2
  | .unsupportedAlu => 3
  | .badRegister => 4

/-- The exit status the host reports for a cause (R262; D4 and D7 decide the last three; UNVERIFIED, log 8). -/
def StopCause.status : StopCause → Nat
  | .halt => 0
  | .unknownOpcode => 1
  | .divByZero => Config.div0Status
  | .unsupportedAlu => 1
  | .badRegister => 1

/-- `stop(cause)` and `raise <Cause>(opcode, at = pc)` (R14, R260): the run state becomes STOPPED, the stop record is
made, and everything else, the pc included, stays (R265, D6; UNVERIFIED, log 7). `opcode` is the raising instruction's
opcode byte, the one at the pc in every step (DEDUCED, log 25). -/
def State.stopWith (s : State) (cause : StopCause) (opcode : Byte) : State :=
  { s with
    run := .stopped
    stop := some { cause := cause, opcode := opcode, atPc := s.pc, status := cause.status } }

/-- What a meaning answers. -/
abbrev Result := Host.Outcome State Fault Refusal

end Sys2Proof.Machine
end

