-- ==== Sys2Proof/Machine/Flags.lean ====
section
/-! DEFINITION. What the ALU computes (41_alu.md R160 to R168). THERE ARE NO FLAGS: the core has no flags register and
no instruction sets or reads one (10_state.md R35); a carry, a borrow, the high half of a product and a remainder are
discarded without trace (R161 to R165), so a result is all an ALU operation has. -/

namespace Sys2Proof.Machine

/-- The operations the ALU supports (R168). -/
inductive AluOp
  | add | sub | mul | div
  deriving DecidableEq, Repr

/-- The ALU operation a selector picks: field `I` of an ALU opcode (R91). A selector outside the four picks none
(R168, R268; the explicit selector is a DESIGN CHOICE, log 17). -/
def AluOp.ofSelector (sel : BitVec 4) : Option AluOp :=
  if sel = 0b0000#4 then some .add
  else if sel = 0b0001#4 then some .sub
  else if sel = 0b0010#4 then some .mul
  else if sel = 0b0011#4 then some .div
  else none

/-- `f_ADD(va, vb) = (va + vb) mod 256` (R161). -/
def fAdd (va vb : Byte) : Byte := BitVec.ofNat 8 ((va.toNat + vb.toNat) % 256)

/-- `f_SUB(va, vb) = (va - vb) mod 256`, in `[0, 255]` (R162). -/
def fSub (va vb : Byte) : Byte := BitVec.ofNat 8 ((va.toNat + 256 - vb.toNat) % 256)

/-- `f_MUL(va, vb) = (va * vb) mod 256`, the low 8 bits of the product (R163). -/
def fMul (va vb : Byte) : Byte := BitVec.ofNat 8 ((va.toNat * vb.toNat) % 256)

/-- `va div vb`, the unsigned floor quotient, for `vb` other than 0 (R13, R164). -/
def fDiv (va vb : Byte) : Byte := BitVec.ofNat 8 (va.toNat / vb.toNat)

/-- The ALU's result; none where DIV raises DivisionByZero (R160, R164). -/
def aluResult (op : AluOp) (va vb : Byte) : Option Byte :=
  match op with
  | .add => some (fAdd va vb)
  | .sub => some (fSub va vb)
  | .mul => some (fMul va vb)
  | .div => if vb = 0#8 then none else some (fDiv va vb)

end Sys2Proof.Machine
end

