-- ==== Sys2Proof/Machine/Operands.lean ====
section
/-! DEFINITION. Operand forms (30_encoding.md R92 to R94). A register operand is one whole byte, checked after
decode and before any effect, `a` before `b` (R97, R266, R267). An immediate is one whole byte used as it is (R93), so
it needs no operation. No instruction has a memory operand (R94). -/

namespace Sys2Proof.Machine

/-- The index of a register (R30). -/
def Reg.index : Reg → Nat
  | .r0 => 0
  | .r1 => 1
  | .r2 => 2
  | .r3 => 3
  | .r4 => 4
  | .r5 => 5
  | .r6 => 6
  | .r7 => 7

/-- The operand byte that names a register (R92). -/
def Reg.byte (r : Reg) : Byte := BitVec.ofNat 8 r.index

/-- The register with a given index, if there is one (R30). -/
def Reg.ofIndex : Nat → Option Reg
  | 0 => some .r0
  | 1 => some .r1
  | 2 => some .r2
  | 3 => some .r3
  | 4 => some .r4
  | 5 => some .r5
  | 6 => some .r6
  | 7 => some .r7
  | _ => none

/-- The register an operand byte names under each value of `REG_INDEX_MODE` (D4). -/
def regOperandIn : RegIndexMode → Byte → Option Reg
  | .fault, b => Reg.ofIndex b.toNat
  | .mask3, b => Reg.ofIndex (b.toNat % 8)

/-- The register an operand byte names; none where it is 8 or more (R92). -/
def regOperand (b : Byte) : Option Reg := regOperandIn Config.regIndexMode b

/-- The check of one register operand (R97, R266): go on with the register, or stop with BAD_REGISTER. -/
def withReg (opcode b : Byte) (s : State) (go : Reg → Result) : Result :=
  match regOperand b with
  | some r => go r
  | none => .next (s.stopWith .badRegister opcode)

/-- The check of two register operands, `a` before `b` (R97, R267). -/
def withRegs (opcode a b : Byte) (s : State) (go : Reg → Reg → Result) : Result :=
  withReg opcode a s fun ra => withReg opcode b s fun rb => go ra rb

/-- The state in which PUSH and CALL read their register operand: after the update of SP, since statements run in the
order written (R15), or before it under the alternative of D5 (log 6). -/
def operandView : SpOperandOrder → State → State → State
  | .asWritten, _, after => after
  | .operandFirst, before, _ => before

end Sys2Proof.Machine
end

