-- ==== Sys2Proof/Machine/Alu.lean ====
section
/-! DEFINITION. The ALU and its four instructions (41_alu.md). -/

namespace Sys2Proof.Machine

/-- `alu(op, a, b)` (R160): both operands are read before the result is written; the operation is the one field `I`
of the opcode selects (R91). A selector outside the four stops with UNSUPPORTED_ALU (R168), a zero divisor of DIV with
DIV_BY_ZERO (R164), and then nothing is written. -/
def alu (opcode a b : Byte) (s : State) : Result :=
  withRegs opcode a b s fun ra rb =>
    match AluOp.ofSelector (opcodeI opcode) with
    | none => .next (s.stopWith .unsupportedAlu opcode)
    | some op =>
      match aluResult op (s.readReg ra) (s.readReg rb) with
      | none => .next (s.stopWith .divByZero opcode)
      | some r => .next ((s.writeReg ra r).advancePc 3)

/-- ADD rA, rB (R161). -/
def execAdd (rA rB : Byte) (s : State) : Result := alu Mnemonic.add.opcode rA rB s

/-- SUB rA, rB (R162). -/
def execSub (rA rB : Byte) (s : State) : Result := alu Mnemonic.sub.opcode rA rB s

/-- MUL rA, rB (R163). -/
def execMul (rA rB : Byte) (s : State) : Result := alu Mnemonic.mul.opcode rA rB s

/-- DIV rA, rB (R164). -/
def execDiv (rA rB : Byte) (s : State) : Result := alu Mnemonic.div.opcode rA rB s

end Sys2Proof.Machine
end

