-- ==== Sys2Proof/Machine/Stack.lean ====
section
/-! DEFINITION. PUSH and POP (42_stack.md). The stack is full-descending (R202) and has no bounds check: SP wraps and
the cell it names is written or read, whatever it holds (20_memory.md R70; UNVERIFIED, log 12). -/

namespace Sys2Proof.Machine

/-- `SP <- SP -8 1` (R200, R230). -/
def State.decSp (s : State) : State := s.setSp (s.sp - 1)

/-- `SP <- SP +8 1` (R201, R231). -/
def State.incSp (s : State) : State := s.setSp (s.sp + 1)

/-- PUSH rA (R200): `SP <- SP -8 1; MemWrite(SP, 1, x[a]); pc <- pc +8 2`, with `x[a]` read after the decrement (D5). -/
def execPush (rA : Byte) (s : State) : Result :=
  withReg Mnemonic.push.opcode rA s fun r =>
    let s1 := s.decSp
    let v := (operandView Config.spOperandOrder s s1).readReg r
    .next ((s1.memWrite s1.sp v).advancePc 2)

/-- POP rA (R201): `x[a] <- MemRead(SP, 1); SP <- SP +8 1; pc <- pc +8 2`, with `SP` read after the write to `x[a]` (D5).
POP reads no register operand, so `SP_OPERAND_ORDER` does not bear on it (log 6). -/
def execPop (rA : Byte) (s : State) : Result :=
  withReg Mnemonic.pop.opcode rA s fun r =>
    let s1 := s.writeReg r (s.memRead s.sp)
    .next (s1.incSp.advancePc 2)

end Sys2Proof.Machine
end

