-- ==== Sys2Proof/Machine/CallReturn.lean ====
section
/-! DEFINITION. CALL and RET (43_call_return.md), the only control transfers (R232). They share the stack with PUSH and
POP (42_stack.md R204). -/

namespace Sys2Proof.Machine

/-- CALL rA (R230): `SP <- SP -8 1; MemWrite(SP, 1, pc +8 2); pc <- x[a]`, with `x[a]` read after the decrement (D5). -/
def execCall (rA : Byte) (s : State) : Result :=
  withReg Mnemonic.call.opcode rA s fun r =>
    let s1 := s.decSp
    let s2 := s1.memWrite s1.sp (pcPlus s.pc 2)
    .next (s2.setPc ((operandView Config.spOperandOrder s s1).readReg r))

/-- RET (R231): `pc <- MemRead(SP, 1); SP <- SP +8 1`. -/
def execRet (s : State) : Result := .next (s.setPc (s.memRead s.sp)).incSp

end Sys2Proof.Machine
end

