-- ==== Sys2Proof/Machine/LoadPrintHalt.lean ====
section
/-! DEFINITION. LDI, PRN and HLT (40_ldi_prn_hlt.md). -/

namespace Sys2Proof.Machine

/-- LDI rA, imm (R130): `x[a] <- b; pc <- pc +8 3`. -/
def execLdi (rA imm : Byte) (s : State) : Result :=
  withReg Mnemonic.ldi.opcode rA s fun r => .next ((s.writeReg r imm).advancePc 3)

/-- PRN rA (R131): `Emit(x[a]); pc <- pc +8 2`. -/
def execPrn (rA : Byte) (s : State) : Result :=
  withReg Mnemonic.prn.opcode rA s fun r => .next ((s.emit (s.readReg r)).advancePc 2)

/-- HLT (R132): `stop(HALT)`; the pc is not changed (D6). -/
def execHlt (s : State) : Result := .next (s.stopWith .halt Mnemonic.hlt.opcode)

end Sys2Proof.Machine
end

