-- ==== Sys2Proof/Machine/Dispatch.lean ====
section
/-! DEFINITION. One arm per instruction (30_encoding.md R97, "execute the instruction's rule"). A meaning does not
test the run state, `step` does (DESIGN CHOICE, log 18). -/

namespace Sys2Proof.Machine

def exec (i : Instr) (s : State) : Host.Outcome State Fault Refusal :=
  match i with
  | .ldi rA imm => Sys2Proof.Machine.execLdi rA imm s
  | .prn rA => Sys2Proof.Machine.execPrn rA s
  | .hlt => Sys2Proof.Machine.execHlt s
  | .add rA rB => Sys2Proof.Machine.execAdd rA rB s
  | .sub rA rB => Sys2Proof.Machine.execSub rA rB s
  | .mul rA rB => Sys2Proof.Machine.execMul rA rB s
  | .div rA rB => Sys2Proof.Machine.execDiv rA rB s
  | .push rA => Sys2Proof.Machine.execPush rA s
  | .pop rA => Sys2Proof.Machine.execPop rA s
  | .call rA => Sys2Proof.Machine.execCall rA s
  | .ret => Sys2Proof.Machine.execRet s

end Sys2Proof.Machine
end

