-- ==== Sys2Proof/Machine/Fetch.lean ====
section
/-! DEFINITION. Fetching and decoding the instruction at the pc (30_encoding.md R90, R97). The model reads both bytes
after the opcode whether or not the instruction uses them: a read has no effect and an unused byte reaches nothing
(20_memory.md R67, D17; DESIGN CHOICE, safe, log 14). -/

namespace Sys2Proof.Machine

/-- Byte `n` of the instruction at the pc: `M[pc +8 n]` (R63, R90). -/
def State.fetchByte (s : State) (n : Nat) : Byte := s.memRead (pcPlus s.pc n)

/-- The instruction at the pc; none where the opcode byte is illegal (R95, R99). -/
def State.fetch (s : State) : Option Instr :=
  decodeInstr (s.fetchByte 0) (s.fetchByte 1) (s.fetchByte 2)

/-- UNKNOWN_OPCODE (R97, R263): the stop record holds the byte at the pc and the pc. -/
def unknownOpcodeStop (s : State) : State := s.stopWith .unknownOpcode (s.fetchByte 0)

/-- Store the first `n` bytes of `byte` at the pc and after it. -/
def State.storeAtPc (s : State) (byte : Nat → Byte) : Nat → State
  | 0 => s
  | n + 1 => (s.storeAtPc byte n).memWrite (pcPlus s.pc n) (byte n)

end Sys2Proof.Machine
end

