-- ==== Sys2Proof/Machine/Step.lean ====
section
/-! DEFINITION. One step of the core (30_encoding.md R97, 00_scope.md R16). -/

namespace Sys2Proof.Machine

/-- One step, taken only when `run` is RUNNING (R16, R97): an illegal opcode stops the core (R263), any other byte runs
its instruction. A STOPPED state takes no step (R16; log 1). -/
def step (s : State) : Host.Outcome State Fault Refusal :=
  match s.run with
  | .stopped => .fault .stopped
  | .running =>
    match s.fetch with
    | none => .next (unknownOpcodeStop s)
    | some i => exec i s

/-- `s` with the instruction of a table word stored at the pc, 3 bytes with zeros above `nbits`, and the core RUNNING,
which a fetch needs (R97; logs 3 and 24). -/
def State.withFetchWord (s : State) (nbits w : Nat) : State :=
  { s.storeAtPc (tableByte nbits w) 3 with run := .running, stop := none }

end Sys2Proof.Machine
end

