-- ==== Sys2Proof/Machine/HostView.lean ====
section
/-! DEFINITION. The core's edges as the host sees them (00_scope.md R7 to R10): launch, the rendering of the output
log, the stop record's reading, and the trace port. None of them is part of a step. -/

namespace Sys2Proof.Machine

/-! ### Launch -/

/-- Load (R301): `M[a + i] <- image[i]`, nothing else. -/
def State.load (s : State) : Byte → List Byte → State
  | _, [] => s
  | a, v :: rest => (s.memWrite a v).load (a + 1) rest

/-- Launch (R7, R302): construction, Load from `LOAD_BASE`, and RUNNING. An image of more than 256 bytes has no run
(R301, D9; UNVERIFIED, log 10). -/
def launch (image : List Byte) : Result :=
  if image.length ≤ Config.memSize then .next (State.reset.load Config.loadBase image)
  else .refused (.imageTooLong image.length)

/-! ### Output and stop -/

/-- One value of `OUT` as the host prints it: decimal digits, no sign, no leading zeros, and a newline (R133, D18). -/
def renderValue (v : Byte) : String := toString v.toNat ++ "\n"

/-- The lines of `OUT` in order (R133, R308). -/
def renderOut (out : List Byte) : String := String.join (out.map renderValue)

/-- The exit status of a run that has ended (R262, R277); none while it goes on. -/
def State.exitStatus (s : State) : Option Nat := s.stop.map (·.status)

/-! ### Trace port -/

/-- What the trace port reads (R280): the pc, the bytes at `pc`, `pc +8 1` and `pc +8 2`, and the registers. -/
structure Trace where
  pc : Byte
  m0 : Byte
  m1 : Byte
  m2 : Byte
  regs : RegFile
  deriving DecidableEq, Repr

/-- The trace tuple, whatever `TRACE_ENABLED` is (R280, D19; UNVERIFIED, log 13). -/
def State.traceTuple (s : State) : Trace where
  pc := s.pc
  m0 := s.memRead s.pc
  m1 := s.memRead (pcPlus s.pc 1)
  m2 := s.memRead (pcPlus s.pc 2)
  regs := s.regs

/-- The trace port: present when `TRACE_ENABLED` holds (R10, R280). Reading it is a function of the state, so it changes
none. -/
def State.trace (s : State) : Option Trace := if Config.traceEnabled then some s.traceTuple else none

/-! ### Assembly text -/

/-- A register operand as assembly writes it, `R0` to `R7` (R101, D21); a byte that names no register has no spelling there
and is shown with its number (log 21). -/
def regText (b : Byte) : String := "R" ++ toString b.toNat

/-- An instruction as assembly writes it (R101). -/
def asmText : Instr → String
  | .ldi rA imm => "LDI " ++ regText rA ++ "," ++ toString imm.toNat
  | .prn rA => "PRN " ++ regText rA
  | .hlt => "HLT"
  | .add rA rB => "ADD " ++ regText rA ++ "," ++ regText rB
  | .sub rA rB => "SUB " ++ regText rA ++ "," ++ regText rB
  | .mul rA rB => "MUL " ++ regText rA ++ "," ++ regText rB
  | .div rA rB => "DIV " ++ regText rA ++ "," ++ regText rB
  | .push rA => "PUSH " ++ regText rA
  | .pop rA => "POP " ++ regText rA
  | .call rA => "CALL " ++ regText rA
  | .ret => "RET"

end Sys2Proof.Machine
end

