-- ==== Sys2Proof/WellFormed.lean ====
section
/-! DEFINITION. Which instructions assembly can write (30_encoding.md R101): every register operand names one of
`R0` to `R7`. The decoder also yields the others (R92), and the machine stops on them with BAD_REGISTER (R266). -/

namespace Sys2Proof

/-- The register operand bytes of an instruction, `a` before `b` (R94). The immediate of LDI is not one. -/
def Instr.regOperands : Instr → List Byte
  | .ldi rA _ => [rA]
  | .prn rA => [rA]
  | .hlt => []
  | .add rA rB => [rA, rB]
  | .sub rA rB => [rA, rB]
  | .mul rA rB => [rA, rB]
  | .div rA rB => [rA, rB]
  | .push rA => [rA]
  | .pop rA => [rA]
  | .call rA => [rA]
  | .ret => []

/-- Every register operand byte is a register index, 0 to 7 (R92). -/
def Instr.wellFormed (i : Instr) : Bool :=
  i.regOperands.all fun b => decide (b.toNat < Config.nreg)

end Sys2Proof
end

