-- ==== Sys2Proof/Safety.lean ====
section
/-! DEFINITION. The terms claims are written in: the next state of an outcome, which cause an instruction stops for
(60_exceptions.md R267), the invariant every step keeps, and what a frame leaves unchanged. The machine does not use
this file. -/

namespace Sys2Proof.Machine

/-- The next state of an outcome, if it is one. -/
def nextState : Result → Option State
  | .next s => some s
  | .fault _ => none
  | .refused _ => none

/-- The register operand byte `b` names a register that holds 0. -/
def holdsZero (s : State) (b : Byte) : Bool := decide ((regOperand b).map s.readReg = some 0#8)

/-- The cause the instruction at the pc stops the core with, the first in the order of R267; none if it does not stop. -/
def dueStop (s : State) : Option StopCause :=
  match s.fetch with
  | none => some .unknownOpcode
  | some i =>
    if i.wellFormed = false then some .badRegister
    else
      match i with
      | .hlt => some .halt
      | .div _ rB => if holdsZero s rB then some .divByZero else none
      | .ldi _ _ => none
      | .prn _ => none
      | .add _ _ => none
      | .sub _ _ => none
      | .mul _ _ => none
      | .push _ => none
      | .pop _ => none
      | .call _ => none
      | .ret => none

/-- A stop record says why the instruction at the pc stopped the core (R38, R260 to R262, R265). -/
structure StopRecord.Explains (r : StopRecord) (s : State) : Prop where
  cause : dueStop s = some r.cause
  opcode : r.opcode = s.fetchByte 0
  atPc : r.atPc = s.pc
  status : r.status = r.cause.status

/-- The invariant: memory has its canonical form, the stop record exists exactly when the run state is STOPPED (R38), and a
stop record says why the instruction at the pc stopped the core. -/
structure Inv (s : State) : Prop where
  memWf : Memory.wf s.mem = true
  stopIffStopped : s.run = .stopped ↔ s.stop.isSome = true
  stopExplained : ∀ r, s.stop = some r → r.Explains s

/-- The registers outside `written` are unchanged, and so are the output log, the run state and the stop record. The pc and
memory are spoken of apart. -/
structure SameBut (written : List Reg) (s t : State) : Prop where
  regs : ∀ r, r ∉ written → t.readReg r = s.readReg r
  out : t.out = s.out
  run : t.run = s.run
  stop : t.stop = s.stop

/-- Every byte of memory outside `stored` reads as before. -/
def MemSameBut (stored : List Byte) (s t : State) : Prop :=
  ∀ a, a ∉ stored → t.memRead a = s.memRead a

/-- What an ALU operation that does not stop leaves: the pc past its three bytes, and everything but `ra` as it was. -/
structure AluFrame (ra : Reg) (s t : State) : Prop where
  pc : t.pc = s.pc + 3
  others : SameBut [ra] s t
  memory : MemSameBut [] s t

/-- A CALL to its own address stands at the pc: CALL of a register other than SP that holds the pc. -/
structure SelfCallAt (r : Reg) (s : State) : Prop where
  memWf : Memory.wf s.mem = true
  running : s.run = .running
  notSp : r ≠ .r7
  opcode : s.memRead s.pc = 0x50#8
  operand : s.memRead (s.pc + 1) = r.byte
  target : s.readReg r = s.pc

end Sys2Proof.Machine
end

