-- ==== Sys2Proof/Certificates/Slice0/Obligations.lean ====
section
/-! DEFINITION. The statements for the provers. Each docstring names the rule of spec/ it formalises, or, where a clause
rests on a decision of the spec's own (`D<n>` of 92_eei_decisions.md) or on a choice of this model, that decision and the
log entry. -/

open Sys2Proof Sys2Proof.Machine

/-! ### Reset and launch -/

/-- R43: every piece of state after construction and before the image is loaded. -/
def Obligations.ResetLeavesTheSpecsValues : Prop :=
  (∀ r : Reg, r ≠ .r7 → State.reset.readReg r = 0x00#8) ∧
  State.reset.readReg .r7 = 0xF4#8 ∧
  State.reset.pc = 0x00#8 ∧
  (∀ a : Byte, State.reset.memRead a = 0x00#8) ∧
  State.reset.run = .running ∧ State.reset.out = [] ∧ State.reset.stop = none

/-- The invariant `Inv` holds after construction. -/
def Obligations.ResetMeetsTheInvariant : Prop := Inv State.reset

/-- R304 (with the launch of 70_reset_and_hazards.md): an image of at most 256 bytes is launched; the core then starts with the
image in memory from address 0, zeros after it, and every other piece of state as construction leaves it. -/
def Obligations.LaunchLoadsTheImageOverReset : Prop :=
  ∀ image : List Byte, image.length ≤ 256 →
    ∃ t, launch image = .next t ∧
      (∀ a : Byte, t.memRead a = image.getD a.toNat 0x00#8) ∧
      (∀ r : Reg, r ≠ .r7 → t.readReg r = 0x00#8) ∧ t.readReg .r7 = 0xF4#8 ∧
      t.pc = 0x00#8 ∧ t.run = .running ∧ t.out = [] ∧ t.stop = none ∧ Inv t

/-- D9 (log 10): a launch of more than 256 bytes is refused. -/
def Obligations.LaunchRefusesALongImage : Prop :=
  ∀ image : List Byte, 256 < image.length → launch image = .refused (.imageTooLong image.length)

/-! ### Encoding -/

/-- Decoding the encoding of any instruction, with any operand bytes and anything after it, gives the instruction and what
follows; and every byte sequence that decodes is the encoding of what it decodes to, followed by the rest. -/
def Obligations.DecodeAndEncodeAgree : Prop :=
  (∀ (i : Instr) (rest : List Byte), decode (encode i ++ rest) = .ok (i, rest)) ∧
  (∀ (bytes : List Byte) (i : Instr) (rest : List Byte), decode bytes = .ok (i, rest) → bytes = encode i ++ rest)

/-- The table's numbering of bits (this model's reading of it, with R65's increasing addresses): the word of every
instruction's encoding decodes to that instruction. -/
def Obligations.TableWordOfEveryEncodingDecodes : Prop :=
  ∀ i : Instr, decodeTableWord (8 * (encode i).length) (tableWord (encode i)) = some i

/-- R103: the opcode map over the 256 byte values, and the table's masks. -/
def Obligations.OpcodeMapOverAllByteValues : Prop :=
  (∀ a b : Byte,
    decodeInstr 0x01#8 a b = some .hlt ∧ decodeInstr 0x11#8 a b = some .ret ∧
    decodeInstr 0x45#8 a b = some (.push a) ∧ decodeInstr 0x46#8 a b = some (.pop a) ∧
    decodeInstr 0x47#8 a b = some (.prn a) ∧ decodeInstr 0x50#8 a b = some (.call a) ∧
    decodeInstr 0x82#8 a b = some (.ldi a b) ∧ decodeInstr 0xA0#8 a b = some (.add a b) ∧
    decodeInstr 0xA1#8 a b = some (.sub a b) ∧ decodeInstr 0xA2#8 a b = some (.mul a b) ∧
    decodeInstr 0xA3#8 a b = some (.div a b)) ∧
  (∀ op a b : Byte,
    op ∉ [0x01#8, 0x11#8, 0x45#8, 0x46#8, 0x47#8, 0x50#8, 0x82#8, 0xA0#8, 0xA1#8, 0xA2#8, 0xA3#8] →
    decodeInstr op a b = none) ∧
  (∀ r ∈ opcodeTable, r.mask = 0xFF#8 ∧ r.value = r.mnemonic.opcode)

/-- R96: an instruction's length is `N + 1`, which is its format's length and the length of its encoding. -/
def Obligations.LengthIsTheOpcodesNPlusOne : Prop :=
  ∀ (op a b : Byte) (row : OpcodeRow) (i : Instr), decodeRow op = some row → decodeInstr op a b = some i →
    instrLength op = (op.extractLsb' 6 2).toNat + 1 ∧
    instrLength op = row.format.operandBytes + 1 ∧
    (encode i).length = instrLength op

/-- C1: bit 5 of a legal opcode marks the four ALU operations and bit 4 the two instructions that set the pc. -/
def Obligations.OpcodeBitsMarkAluAndPcSetting : Prop :=
  ∀ (op a b : Byte) (i : Instr), decodeInstr op a b = some i →
    (opcodeA op = true ↔ ∃ x y, i = .add x y ∨ i = .sub x y ∨ i = .mul x y ∨ i = .div x y) ∧
    (opcodeP op = true ↔ (∃ x, i = .call x) ∨ i = .ret)

/-- D17 (log 14): the bytes an instruction does not use do not reach what it decodes to. -/
def Obligations.UnusedOperandBytesReachNothing : Prop :=
  ∀ op a b a' b' : Byte,
    (opcodeN op ≤ 1 → decodeInstr op a b = decodeInstr op a b') ∧
    (opcodeN op = 0 → decodeInstr op a b = decodeInstr op a' b')

/-! ### The step -/

/-- The instruction cycle (30_encoding.md; the wrap of `pc + 1` and `pc + 2` is D2, log 4): a running core whose bytes at the
pc decode to an instruction runs it. -/
def Obligations.StepRunsTheDecodedInstruction : Prop :=
  ∀ (s : State) (i : Instr), s.run = .running →
    (decodeInstr (s.memRead s.pc) (s.memRead (s.pc + 1)) (s.memRead (s.pc + 2)) = some i ∨
      ∃ rest, decode [s.memRead s.pc, s.memRead (s.pc + 1), s.memRead (s.pc + 2)] = .ok (i, rest)) →
    step s = exec i s

/-- R16: one step either gives a next state that is RUNNING or stops with a cause; a STOPPED state takes no step. -/
def Obligations.StepGoesOnOrStopsWithACause : Prop :=
  ∀ s : State,
    (s.run = .running → ∃ t, step s = .next t ∧
      ((t.run = .running ∧ t.stop = s.stop) ∨ (t.run = .stopped ∧ ∃ rec, t.stop = some rec))) ∧
    (s.run = .stopped → ∀ t, step s ≠ .next t)

/-- R263: an opcode byte outside the eleven stops the core; the record holds the byte and the pc, and no state changes. -/
def Obligations.UnknownOpcodeStops : Prop :=
  ∀ s : State, s.run = .running →
    s.memRead s.pc ∉ [0x82#8, 0x47#8, 0x01#8, 0xA0#8, 0xA1#8, 0xA2#8, 0xA3#8, 0x45#8, 0x46#8, 0x50#8, 0x11#8] →
    ∃ t rec, step s = .next t ∧ t.run = .stopped ∧ t.stop = some rec ∧
      rec.cause = .unknownOpcode ∧ rec.opcode = s.memRead s.pc ∧ rec.atPc = s.pc ∧ rec.status ≠ 0 ∧
      t.regs = s.regs ∧ t.mem = s.mem ∧ t.pc = s.pc ∧ t.out = s.out

/-- D4 and D8 (logs 5 and 9): every instruction with a register operand byte of 8 or more, in either place and whatever the
other operand or a divisor is, stops with BAD_REGISTER and changes nothing else. -/
def Obligations.BadRegisterOperandStops : Prop :=
  ∀ (i : Instr) (s : State), (∃ b ∈ i.regOperands, 8 ≤ b.toNat) →
    exec i s = .next { s with
      run := .stopped
      stop := some { cause := .badRegister, opcode := i.opcode, atPc := s.pc, status := 1 } }

/-- D7 and D8 (logs 8 and 9): a running core stops exactly when an instruction is due to stop, with the first cause in the
spec's order, the byte at the pc, the pc, and exit status 0 for HALT alone. -/
def Obligations.StepStopsExactlyForTheDueCause : Prop :=
  ∀ s : State, s.run = .running →
    (∀ c, dueStop s = some c → ∃ t, step s = .next t ∧ t.run = .stopped ∧
      t.stop = some { cause := c, opcode := s.memRead s.pc, atPc := s.pc, status := if c = .halt then 0 else 1 }) ∧
    (dueStop s = none → ∃ t, step s = .next t ∧ t.run = .running)

/-- D6 (log 7): the instruction that stops the core changes no register, no memory, no output and not the pc. -/
def Obligations.StopsArePrecise : Prop :=
  ∀ s t : State, step s = .next t → t.run = .stopped →
    t.regs = s.regs ∧ t.mem = s.mem ∧ t.pc = s.pc ∧ t.out = s.out

/-- Every step keeps the invariant `Inv`: the canonical form of memory, the stop record exactly when STOPPED (10_state.md, the
stop record), and a stop record that says why the instruction at the pc stopped. -/
def Obligations.StepKeepsTheInvariant : Prop :=
  ∀ s t : State, Inv s → step s = .next t → Inv t

/-- Log 24: a table word placed by `withFetchWord` is the next instruction the step runs. -/
def Obligations.FetchWordIsTheNextInstruction : Prop :=
  ∀ (s : State) (nbits w : Nat) (i : Instr), Memory.wf s.mem = true → decodeTableWord nbits w = some i →
    step (s.withFetchWord nbits w) = exec i (s.withFetchWord nbits w)

/-! ### LDI, PRN, HLT -/

/-- 40_ldi_prn_hlt.md, LDI (the wrap of the pc is D2, log 4): the register takes the immediate; the frame. -/
def Obligations.LdiLoadsTheImmediate : Prop :=
  ∀ (r : Reg) (imm : Byte) (s : State), ∃ t, exec (.ldi r.byte imm) s = .next t ∧
    t.readReg r = imm ∧ t.pc = s.pc + 3 ∧ SameBut [r] s t ∧ MemSameBut [] s t

/-- 40_ldi_prn_hlt.md, PRN (the wrap of the pc is D2, log 4): the register's value is appended to the output; the frame. -/
def Obligations.PrnAppendsTheRegister : Prop :=
  ∀ (r : Reg) (s : State), ∃ t, exec (.prn r.byte) s = .next t ∧
    t.out = s.out ++ [s.readReg r] ∧ t.pc = s.pc + 2 ∧
    (∀ r', t.readReg r' = s.readReg r') ∧ t.run = s.run ∧ t.stop = s.stop ∧ MemSameBut [] s t

/-- 40_ldi_prn_hlt.md, HLT (the pc stays: D6, log 7): the core stops with status 0 and nothing else changes. -/
def Obligations.HltStopsWithStatusZero : Prop :=
  ∀ s : State, exec .hlt s = .next { s with
    run := .stopped
    stop := some { cause := .halt, opcode := 0x01#8, atPc := s.pc, status := 0 } }

/-- 40_ldi_prn_hlt.md, output rendering (the digits are D18, log 21): LDI r, v and then PRN r append `v`, which the host prints in
decimal on a line of its own. -/
def Obligations.LdiThenPrnPrintsTheImmediate : Prop :=
  ∀ (r : Reg) (v : Byte) (s : State), ∃ t u, exec (.ldi r.byte v) s = .next t ∧ exec (.prn r.byte) t = .next u ∧
    u.out = s.out ++ [v] ∧ renderOut u.out = renderOut s.out ++ (toString v.toNat ++ "\n")

/-! ### The ALU -/

/-- R165: ADD, SUB and MUL work on unsigned 8-bit values and wrap modulo 256; they always complete, and an overflow has no
other effect: the frame. -/
def Obligations.AddSubMulWrapModulo256 : Prop :=
  ∀ (ra rb : Reg) (s : State),
    (∃ t, exec (.add ra.byte rb.byte) s = .next t ∧
      (t.readReg ra).toNat = ((s.readReg ra).toNat + (s.readReg rb).toNat) % 256 ∧ AluFrame ra s t) ∧
    (∃ t, exec (.sub ra.byte rb.byte) s = .next t ∧
      (t.readReg ra).toNat = ((s.readReg ra).toNat + (256 - (s.readReg rb).toNat)) % 256 ∧ AluFrame ra s t) ∧
    (∃ t, exec (.mul ra.byte rb.byte) s = .next t ∧
      (t.readReg ra).toNat = ((s.readReg ra).toNat * (s.readReg rb).toNat) % 256 ∧ AluFrame ra s t)

/-- R167: DIV gives the unsigned floor quotient where the divisor register is not 0, with its frame, and stops with
DIV_BY_ZERO and the destination unchanged where it is. -/
def Obligations.DivAtEveryOperandClass : Prop :=
  ∀ (ra rb : Reg) (s : State),
    (s.readReg rb ≠ 0x00#8 → ∃ t, exec (.div ra.byte rb.byte) s = .next t ∧
      (t.readReg ra).toNat = (s.readReg ra).toNat / (s.readReg rb).toNat ∧ AluFrame ra s t) ∧
    (s.readReg rb = 0x00#8 → ∃ t rec, exec (.div ra.byte rb.byte) s = .next t ∧
      t.run = .stopped ∧ t.stop = some rec ∧ rec.cause = .divByZero ∧ t.readReg ra = s.readReg ra)

/-- R264: DIV by a register that holds 0, after both operands passed their check, writes no register and does not advance the
pc; the stop is fatal, with a status that is not 0. -/
def Obligations.DivByZeroIsFatal : Prop :=
  ∀ (ra rb : Reg) (s : State), s.readReg rb = 0x00#8 →
    ∃ t rec, exec (.div ra.byte rb.byte) s = .next t ∧
      t.run = .stopped ∧ t.stop = some rec ∧ rec.cause = .divByZero ∧ rec.opcode = 0xA3#8 ∧ rec.atPc = s.pc ∧
      rec.status ≠ 0 ∧ (∀ r, t.readReg r = s.readReg r) ∧ t.pc = s.pc ∧ t.out = s.out ∧ MemSameBut [] s t

/-- 41_alu.md, arithmetic laws (derived there; unsigned operands are D3, log 19): ADD, SUB and MUL are also right when the
operands are read in two's complement; DIV is not, since 0xFE div 0x02 is 0x7F. -/
def Obligations.AluUnderTwosComplement : Prop :=
  ∀ (ra rb : Reg) (s : State),
    (∃ t, exec (.add ra.byte rb.byte) s = .next t ∧
      (t.readReg ra).toInt = ((s.readReg ra).toInt + (s.readReg rb).toInt).bmod 256) ∧
    (∃ t, exec (.sub ra.byte rb.byte) s = .next t ∧
      (t.readReg ra).toInt = ((s.readReg ra).toInt - (s.readReg rb).toInt).bmod 256) ∧
    (∃ t, exec (.mul ra.byte rb.byte) s = .next t ∧
      (t.readReg ra).toInt = ((s.readReg ra).toInt * (s.readReg rb).toInt).bmod 256) ∧
    (s.readReg ra = 0xFE#8 → s.readReg rb = 0x02#8 →
      ∃ t, exec (.div ra.byte rb.byte) s = .next t ∧ t.readReg ra = 0x7F#8)

/-- 41_alu.md, arithmetic laws, with this model's DESIGN CHOICE of the selector (log 17: field `I` of an opcode byte, which the
spec does not fix): the ALU supports exactly the four operations; any other selection stops with UNSUPPORTED_ALU and a status
that is not 0, and the decoder selects no other. -/
def Obligations.AluSupportsExactlyFourOperations : Prop :=
  (∀ (op a b : Byte) (i : Instr), decodeInstr op a b = some i → opcodeA op = true →
    opcodeI op ∈ [0b0000#4, 0b0001#4, 0b0010#4, 0b0011#4]) ∧
  ∀ (opcode : Byte) (ra rb : Reg) (s : State),
    (opcodeI opcode ∉ [0b0000#4, 0b0001#4, 0b0010#4, 0b0011#4] →
      ∃ t rec, alu opcode ra.byte rb.byte s = .next t ∧ t.run = .stopped ∧ t.stop = some rec ∧
        rec.cause = .unsupportedAlu ∧ rec.status ≠ 0) ∧
    (opcodeI opcode ∈ [0b0000#4, 0b0001#4, 0b0010#4, 0b0011#4] → s.stop = none →
      ∃ t, alu opcode ra.byte rb.byte s = .next t ∧ ∀ rec, t.stop = some rec → rec.cause ≠ .unsupportedAlu)

/-- R100: no step of the core brings about a stop with UNSUPPORTED_ALU. -/
def Obligations.UnsupportedAluNeverArises : Prop :=
  ∀ s t : State, step s = .next t → (∀ rec, s.stop = some rec → rec.cause ≠ .unsupportedAlu) →
    ∀ rec, t.stop = some rec → rec.cause ≠ .unsupportedAlu

/-! ### Stack and control -/

/-- 42_stack.md, PUSH: SP is decremented, wrapping (D12, log 12), and the register's value is stored there, read after the
decrement (D5, log 6); the frame. -/
def Obligations.PushStoresBelowSp : Prop :=
  ∀ (r : Reg) (s : State), Memory.wf s.mem = true → ∃ t, exec (.push r.byte) s = .next t ∧
    t.readReg .r7 = s.readReg .r7 - 1 ∧
    t.memRead (s.readReg .r7 - 1) = (if r = .r7 then s.readReg .r7 - 1 else s.readReg r) ∧
    t.pc = s.pc + 2 ∧ SameBut [.r7] s t ∧ MemSameBut [s.readReg .r7 - 1] s t

/-- 42_stack.md, POP: the register takes the byte at SP and SP is incremented, wrapping (D12, log 12); POP of SP leaves that
byte plus one (D5, log 6); the frame. -/
def Obligations.PopLoadsFromSp : Prop :=
  ∀ (r : Reg) (s : State), ∃ t, exec (.pop r.byte) s = .next t ∧
    (r ≠ .r7 → t.readReg r = s.memRead (s.readReg .r7) ∧ t.readReg .r7 = s.readReg .r7 + 1) ∧
    (r = .r7 → t.readReg .r7 = s.memRead (s.readReg .r7) + 1) ∧
    t.pc = s.pc + 2 ∧ SameBut [r, .r7] s t ∧ MemSameBut [] s t

/-- 43_call_return.md, CALL: the return address `pc + 2` is pushed and the pc takes the register, read after the decrement (D5,
log 6; wraps D2 and D12, logs 4 and 12); the frame. -/
def Obligations.CallPushesReturnAddressAndJumps : Prop :=
  ∀ (r : Reg) (s : State), Memory.wf s.mem = true → ∃ t, exec (.call r.byte) s = .next t ∧
    t.readReg .r7 = s.readReg .r7 - 1 ∧
    t.memRead (s.readReg .r7 - 1) = s.pc + 2 ∧
    t.pc = (if r = .r7 then s.readReg .r7 - 1 else s.readReg r) ∧
    SameBut [.r7] s t ∧ MemSameBut [s.readReg .r7 - 1] s t

/-- R231: RET takes the pc from the byte at SP and increments SP; it never stops, and the cell is not cleared; its encoding; the frame. -/
def Obligations.RetPopsThePc : Prop :=
  encode .ret = [0b00010001#8] ∧
  ∀ s : State, ∃ t, exec .ret s = .next t ∧
    t.pc = s.memRead (s.readReg .r7) ∧ t.readReg .r7 = s.readReg .r7 + 1 ∧
    SameBut [.r7] s t ∧ MemSameBut [] s t

/-- 42_stack.md, stack discipline: PUSH then POP carries a value between registers other than SP and restores SP (C6). -/
def Obligations.PushThenPopCarriesTheValue : Prop :=
  ∀ (r r' : Reg) (s : State), Memory.wf s.mem = true → r ≠ .r7 → r' ≠ .r7 →
    ∃ t u, exec (.push r.byte) s = .next t ∧ exec (.pop r'.byte) t = .next u ∧
      u.readReg r' = s.readReg r ∧ u.readReg .r7 = s.readReg .r7 ∧
      u.memRead (s.readReg .r7 - 1) = s.readReg r ∧ u.pc = s.pc + 4

/-- 42_stack.md, stack discipline, the results with register 7 (D5, log 6): PUSH R7 then POP gives SP minus one; PUSH then
POP R7 gives the value plus one. -/
def Obligations.PushThenPopThroughRegisterSeven : Prop :=
  ∀ (r : Reg) (s : State), Memory.wf s.mem = true → r ≠ .r7 →
    (∃ t u, exec (.push Reg.r7.byte) s = .next t ∧ exec (.pop r.byte) t = .next u ∧
      u.readReg r = s.readReg .r7 - 1 ∧ u.readReg .r7 = s.readReg .r7) ∧
    (∃ t u, exec (.push r.byte) s = .next t ∧ exec (.pop Reg.r7.byte) t = .next u ∧
      u.readReg .r7 = s.readReg r + 1)

/-- 43_call_return.md, control-transfer laws (derived there): after CALL and any code that leaves SP and the byte at SP as CALL
left them, RET goes to the byte after the CALL and restores SP. -/
def Obligations.RetReturnsToTheCaller : Prop :=
  ∀ (r : Reg) (s : State), Memory.wf s.mem = true →
    ∃ t, exec (.call r.byte) s = .next t ∧
      ∀ u : State, u.readReg .r7 = t.readReg .r7 → u.memRead (u.readReg .r7) = t.memRead (t.readReg .r7) →
        ∃ v, exec .ret u = .next v ∧ v.pc = s.pc + 2 ∧ v.readReg .r7 = s.readReg .r7

/-- 42_stack.md, stack discipline (derived there): one stack is shared, so RET takes a byte that PUSH pushed and POP takes a
return address that CALL pushed. -/
def Obligations.PushPopCallRetShareOneStack : Prop :=
  ∀ (r r' : Reg) (s : State), Memory.wf s.mem = true → r ≠ .r7 → r' ≠ .r7 →
    (∃ t u, exec (.push r.byte) s = .next t ∧ exec .ret t = .next u ∧
      u.pc = s.readReg r ∧ u.readReg .r7 = s.readReg .r7) ∧
    (∃ t u, exec (.call r.byte) s = .next t ∧ exec (.pop r'.byte) t = .next u ∧
      u.readReg r' = s.pc + 2 ∧ u.readReg .r7 = s.readReg .r7 ∧ u.pc = s.readReg r + 2)

/-! ### Rules about the whole machine -/

/-- R37: the output log is empty at launch; a PRN that executes appends the value of its register, and nothing else changes
the log. -/
def Obligations.OutputGrowsOnlyByPrn : Prop :=
  (∀ image t, launch image = .next t → t.out = []) ∧
  (∀ (s t : State) (r : Reg), step s = .next t → s.memRead s.pc = 0x47#8 → s.memRead (s.pc + 1) = r.byte →
    t.out = s.out ++ [s.readReg r]) ∧
  (∀ s t : State, step s = .next t → ¬ (s.memRead s.pc = 0x47#8 ∧ (s.memRead (s.pc + 1)).toNat < 8) →
    t.out = s.out)

/-- 20_memory.md, the accesses of each instruction: a step changes memory only by PUSH or CALL, and only at SP minus one. -/
def Obligations.MemoryIsWrittenOnlyByPushAndCall : Prop :=
  ∀ (s t : State) (a : Byte), step s = .next t → t.memRead a ≠ s.memRead a →
    a = s.readReg .r7 - 1 ∧ (s.memRead s.pc = 0x45#8 ∨ s.memRead s.pc = 0x50#8)

/-- 10_state.md, register writes per instruction (derived there): a step changes only SP, by a stack instruction, or the
register its first operand byte names, by an instruction with a destination register. -/
def Obligations.RegistersAreWrittenAsTheTableSays : Prop :=
  ∀ (s t : State) (r : Reg), step s = .next t → t.readReg r ≠ s.readReg r →
    (r = .r7 ∧ s.memRead s.pc ∈ [0x45#8, 0x46#8, 0x50#8, 0x11#8]) ∨
    (s.memRead (s.pc + 1) = r.byte ∧ s.memRead s.pc ∈ [0x82#8, 0xA0#8, 0xA1#8, 0xA2#8, 0xA3#8, 0x46#8])

/-- 43_call_return.md and 30_encoding.md, pc effects (the wrap is D2, log 4; the pc after a stop D6, log 7): a step that goes on
and is no CALL or RET advances the pc by the length its opcode byte gives; a step that stops leaves the pc. -/
def Obligations.OnlyCallAndRetTransferControl : Prop :=
  ∀ s t : State, step s = .next t →
    (t.run = .running → s.memRead s.pc ≠ 0x50#8 → s.memRead s.pc ≠ 0x11#8 →
      t.pc = s.pc + BitVec.ofNat 8 (instrLength (s.memRead s.pc))) ∧
    (t.run = .stopped → t.pc = s.pc)

/-- D10 (log 11): a PUSH whose byte lands on the next opcode address is seen by the very next fetch; if the byte is HLT's
opcode, the next step halts there. -/
def Obligations.NextFetchSeesThePushedByte : Prop :=
  ∀ (s : State) (r : Reg), Memory.wf s.mem = true → s.run = .running → r ≠ .r7 →
    s.memRead s.pc = 0x45#8 → s.memRead (s.pc + 1) = r.byte → s.readReg .r7 - 1 = s.pc + 2 →
    ∃ t, step s = .next t ∧ t.run = .running ∧ t.pc = s.pc + 2 ∧ t.memRead t.pc = s.readReg r ∧
      (s.readReg r = 0x01#8 → ∃ u, step t = .next u ∧
        u.stop = some { cause := .halt, opcode := 0x01#8, atPc := s.pc + 2, status := 0 })

/-- 60_exceptions.md, end of a run, says that a CALL to its own address runs for ever. EXPECTED TO FAIL under the spec's own
rules: the pushes reach the CALL's own bytes, and a later fetch sees them (log 16). -/
def Obligations.SelfCallNeverStops : Prop :=
  ∀ (r : Reg) (s : State) (n : Nat), SelfCallAt r s →
    ∃ t : State, Sys2Proof.core.run n s = .next t ∧ t.run = .running

/-- What holds instead (log 16): a CALL to its own address goes on for as many steps as there are cells from SP down to the two
bytes of the CALL, one push a step, and does not move. -/
def Obligations.SelfCallRunsUntilTheStackReachesIt : Prop :=
  ∀ (r : Reg) (s : State) (n : Nat), SelfCallAt r s → s.readReg .r7 ≠ s.pc + 1 →
    n ≤ (s.readReg .r7 - (s.pc + 2)).toNat →
    ∃ t : State, Sys2Proof.core.run n s = .next t ∧ t.run = .running ∧ t.pc = s.pc ∧
      t.readReg .r7 = s.readReg .r7 - BitVec.ofNat 8 n

/-- D19 (log 13): the trace port, where it is present, reads the pc, the three bytes from the pc on and the registers. -/
def Obligations.TracePortReadsTheInstructionsBytes : Prop :=
  ∀ s : State, s.trace =
    if Config.traceEnabled then
      some { pc := s.pc, m0 := s.memRead s.pc, m1 := s.memRead (s.pc + 1), m2 := s.memRead (s.pc + 2), regs := s.regs }
    else none
end

