-- ==== Sys2Proof/Laws/Decode.lean ====
section
/-! SUPPORT. The opcode table: no two rows overlap, and a byte selects a row exactly when it is that row's opcode
(30_encoding.md R95, R103). -/

namespace Sys2Proof

/-- No byte matches two rows of the opcode table. -/
theorem opcodeTable_disjoint :
    opcodeTable.Pairwise fun r r' => r.value &&& (r.mask &&& r'.mask) ≠ r'.value &&& (r.mask &&& r'.mask) := by
  decide

/-- Every row's value is its mnemonic's opcode byte, compared in full. -/
theorem opcodeTable_row {r : OpcodeRow} (h : r ∈ opcodeTable) : r.mask = 0xFF#8 ∧ r.value = r.mnemonic.opcode := by
  revert r
  decide

theorem decodeRow_sound {op : Byte} {r : OpcodeRow} (h : decodeRow op = some r) :
    r ∈ opcodeTable ∧ op = r.mnemonic.opcode := by
  have hm := List.mem_of_find?_eq_some h
  have hp := List.find?_some h
  obtain ⟨hmask, hval⟩ := opcodeTable_row hm
  refine ⟨hm, ?_⟩
  rw [hmask, hval] at hp
  have hall : op &&& 0xFF#8 = op := BitVec.and_allOnes
  rw [hall] at hp
  exact eq_of_beq hp

theorem decodeRow_opcode (m : Mnemonic) : ∃ r, decodeRow m.opcode = some r ∧ r.mnemonic = m := by
  cases m <;> exact ⟨_, rfl, rfl⟩

/-- An opcode byte is illegal exactly when it is no mnemonic's opcode (R99). -/
theorem decodeRow_eq_none {op : Byte} : decodeRow op = none ↔ ∀ m : Mnemonic, op ≠ m.opcode := by
  constructor
  · rintro h m rfl
    obtain ⟨r, hr, -⟩ := decodeRow_opcode m
    rw [h] at hr; cases hr
  · intro h
    cases hr : decodeRow op with
    | none => rfl
    | some r => exact absurd (decodeRow_sound hr).2 (h _)

@[simp] theorem Mnemonic.instr_mnemonic (m : Mnemonic) (a b : Byte) : (m.instr a b).mnemonic = m := by
  cases m <;> rfl

@[simp] theorem decodeInstr_opcode (m : Mnemonic) (a b : Byte) : decodeInstr m.opcode a b = some (m.instr a b) := by
  obtain ⟨r, hr, rfl⟩ := decodeRow_opcode m
  simp [decodeInstr, hr]

/-- Everything the decoder can answer: the instruction of the mnemonic whose opcode the byte is. -/
theorem decodeInstr_sound {op a b : Byte} {i : Instr} (h : decodeInstr op a b = some i) :
    ∃ m : Mnemonic, op = m.opcode ∧ i = m.instr a b := by
  obtain ⟨r, hr, rfl⟩ := Option.map_eq_some_iff.1 h
  exact ⟨r.mnemonic, (decodeRow_sound hr).2, rfl⟩

theorem decodeInstr_opcode_eq {op a b : Byte} {i : Instr} (h : decodeInstr op a b = some i) : i.opcode = op := by
  obtain ⟨m, rfl, rfl⟩ := decodeInstr_sound h
  simp [Instr.opcode]

theorem decodeInstr_eq_none {op a b : Byte} : decodeInstr op a b = none ↔ ∀ m : Mnemonic, op ≠ m.opcode := by
  rw [decodeInstr, Option.map_eq_none_iff, decodeRow_eq_none]

/-! ### The small lemmas of each opcode: the opcode byte of an instruction, its row, and its length -/

section
variable (a b : Byte)

@[simp] theorem Instr.opcode_ldi : (Instr.ldi a b).opcode = 0x82#8 := rfl
@[simp] theorem Instr.opcode_prn : (Instr.prn a).opcode = 0x47#8 := rfl
@[simp] theorem Instr.opcode_hlt : Instr.hlt.opcode = 0x01#8 := rfl
@[simp] theorem Instr.opcode_add : (Instr.add a b).opcode = 0xA0#8 := rfl
@[simp] theorem Instr.opcode_sub : (Instr.sub a b).opcode = 0xA1#8 := rfl
@[simp] theorem Instr.opcode_mul : (Instr.mul a b).opcode = 0xA2#8 := rfl
@[simp] theorem Instr.opcode_div : (Instr.div a b).opcode = 0xA3#8 := rfl
@[simp] theorem Instr.opcode_push : (Instr.push a).opcode = 0x45#8 := rfl
@[simp] theorem Instr.opcode_pop : (Instr.pop a).opcode = 0x46#8 := rfl
@[simp] theorem Instr.opcode_call : (Instr.call a).opcode = 0x50#8 := rfl
@[simp] theorem Instr.opcode_ret : Instr.ret.opcode = 0x11#8 := rfl

@[simp] theorem decodeRow_ldi : decodeRow 0x82#8 = some ⟨.ldi, .f2, 0xFF#8, 0x82#8⟩ := by decide
@[simp] theorem decodeRow_prn : decodeRow 0x47#8 = some ⟨.prn, .f1, 0xFF#8, 0x47#8⟩ := by decide
@[simp] theorem decodeRow_hlt : decodeRow 0x01#8 = some ⟨.hlt, .f0, 0xFF#8, 0x01#8⟩ := by decide
@[simp] theorem decodeRow_add : decodeRow 0xA0#8 = some ⟨.add, .f2, 0xFF#8, 0xA0#8⟩ := by decide
@[simp] theorem decodeRow_sub : decodeRow 0xA1#8 = some ⟨.sub, .f2, 0xFF#8, 0xA1#8⟩ := by decide
@[simp] theorem decodeRow_mul : decodeRow 0xA2#8 = some ⟨.mul, .f2, 0xFF#8, 0xA2#8⟩ := by decide
@[simp] theorem decodeRow_div : decodeRow 0xA3#8 = some ⟨.div, .f2, 0xFF#8, 0xA3#8⟩ := by decide
@[simp] theorem decodeRow_push : decodeRow 0x45#8 = some ⟨.push, .f1, 0xFF#8, 0x45#8⟩ := by decide
@[simp] theorem decodeRow_pop : decodeRow 0x46#8 = some ⟨.pop, .f1, 0xFF#8, 0x46#8⟩ := by decide
@[simp] theorem decodeRow_call : decodeRow 0x50#8 = some ⟨.call, .f1, 0xFF#8, 0x50#8⟩ := by decide
@[simp] theorem decodeRow_ret : decodeRow 0x11#8 = some ⟨.ret, .f0, 0xFF#8, 0x11#8⟩ := by decide

@[simp] theorem instrLength_ldi : instrLength 0x82#8 = 3 := by decide
@[simp] theorem instrLength_prn : instrLength 0x47#8 = 2 := by decide
@[simp] theorem instrLength_hlt : instrLength 0x01#8 = 1 := by decide
@[simp] theorem instrLength_add : instrLength 0xA0#8 = 3 := by decide
@[simp] theorem instrLength_sub : instrLength 0xA1#8 = 3 := by decide
@[simp] theorem instrLength_mul : instrLength 0xA2#8 = 3 := by decide
@[simp] theorem instrLength_div : instrLength 0xA3#8 = 3 := by decide
@[simp] theorem instrLength_push : instrLength 0x45#8 = 2 := by decide
@[simp] theorem instrLength_pop : instrLength 0x46#8 = 2 := by decide
@[simp] theorem instrLength_call : instrLength 0x50#8 = 2 := by decide
@[simp] theorem instrLength_ret : instrLength 0x11#8 = 1 := by decide

end

end Sys2Proof
end

