-- ==== Sys2Proof/Laws/Memory.lean ====
section
/-! SUPPORT. Memory: every operation keeps the canonical form, reading after writing, and equal readings are equal
lists (20_memory.md R61, R62). -/

namespace Sys2Proof.Machine

theorem Memory.wfFrom_cons {lo k : Nat} {v : Byte} {m : Memory} :
    Memory.wfFrom lo ((k, v) :: m) = true ↔
      lo ≤ k ∧ k < 256 ∧ v ≠ Memory.unlisted ∧ Memory.wfFrom (k + 1) m = true := by
  simp [Memory.wfFrom, and_assoc]

theorem Memory.wfFrom_mono {lo lo' : Nat} {m : Memory} (h : lo' ≤ lo) (hm : Memory.wfFrom lo m = true) :
    Memory.wfFrom lo' m = true := by
  cases m with
  | nil => rfl
  | cons c m =>
    obtain ⟨hk, rest⟩ := Memory.wfFrom_cons.1 hm
    exact Memory.wfFrom_cons.2 ⟨by omega, rest⟩

/-- Below its first possible address a memory lists nothing. -/
theorem Memory.read_of_lt {lo : Nat} {m : Memory} {a : Nat} (hm : Memory.wfFrom lo m = true) (ha : a < lo) :
    Memory.read m a = Memory.unlisted := by
  induction m generalizing lo with
  | nil => rfl
  | cons c m ih =>
    obtain ⟨hk, -, -, hm'⟩ := Memory.wfFrom_cons.1 hm
    simp only [Memory.read]
    rw [if_neg (by omega), ih hm' (by omega)]

/-- Past the last cell a memory lists nothing. -/
theorem Memory.read_of_ge {lo : Nat} {m : Memory} {a : Nat} (hm : Memory.wfFrom lo m = true) (ha : 256 ≤ a) :
    Memory.read m a = Memory.unlisted := by
  induction m generalizing lo with
  | nil => rfl
  | cons c m ih =>
    obtain ⟨-, hk, -, hm'⟩ := Memory.wfFrom_cons.1 hm
    simp only [Memory.read]
    rw [if_neg (by omega), ih hm']

theorem Memory.read_cons_same {lo a : Nat} {v : Byte} {m : Memory} (hm : Memory.wfFrom lo m = true) (ha : a < lo) :
    Memory.read (Memory.cons a v m) a = v := by
  unfold Memory.cons
  split
  · next h => rw [h]; exact Memory.read_of_lt hm ha
  · simp [Memory.read]

theorem Memory.read_cons_of_ne {a a' : Nat} {v : Byte} {m : Memory} (h : a' ≠ a) :
    Memory.read (Memory.cons a v m) a' = Memory.read m a' := by
  unfold Memory.cons
  split
  · rfl
  · simp only [Memory.read]; rw [if_neg h.symm]

theorem Memory.wfFrom_consCell {lo a : Nat} {v : Byte} {m : Memory} (hlo : lo ≤ a) (ha : a < 256)
    (hm : Memory.wfFrom (a + 1) m = true) : Memory.wfFrom lo (Memory.cons a v m) = true := by
  unfold Memory.cons
  split
  · exact Memory.wfFrom_mono (by omega) hm
  · next h => exact Memory.wfFrom_cons.2 ⟨hlo, ha, h, hm⟩

theorem Memory.wfFrom_write {lo a : Nat} {v : Byte} {m : Memory} (hlo : lo ≤ a) (ha : a < 256)
    (hm : Memory.wfFrom lo m = true) : Memory.wfFrom lo (Memory.write m a v) = true := by
  induction m generalizing lo with
  | nil => exact Memory.wfFrom_consCell hlo ha rfl
  | cons c m ih =>
    obtain ⟨k, w⟩ := c
    obtain ⟨hk, hk', hw, hm'⟩ := Memory.wfFrom_cons.1 hm
    simp only [Memory.write]
    split
    · exact Memory.wfFrom_consCell hlo ha (Memory.wfFrom_cons.2 ⟨by omega, hk', hw, hm'⟩)
    · split
      · next h => subst h; exact Memory.wfFrom_consCell hlo ha hm'
      · exact Memory.wfFrom_cons.2 ⟨hk, hk', hw, ih (by omega) hm'⟩

/-- A write keeps the canonical form. -/
theorem Memory.wf_write {m : Memory} (hm : Memory.wf m = true) {a : Nat} (ha : a < 256) (v : Byte) :
    Memory.wf (Memory.write m a v) = true :=
  Memory.wfFrom_write (Nat.zero_le a) ha hm

theorem Memory.read_write_same {lo a : Nat} {v : Byte} {m : Memory} (hm : Memory.wfFrom lo m = true) :
    Memory.read (Memory.write m a v) a = v := by
  induction m generalizing lo with
  | nil => exact Memory.read_cons_same (lo := a + 1) rfl (by omega)
  | cons c m ih =>
    obtain ⟨k, w⟩ := c
    obtain ⟨-, hk', hw, hm'⟩ := Memory.wfFrom_cons.1 hm
    simp only [Memory.write]
    split
    · next h => exact Memory.read_cons_same (Memory.wfFrom_cons.2 ⟨le_rfl, hk', hw, hm'⟩) h
    · split
      · next h => exact Memory.read_cons_same hm' (by omega)
      · next h => simp only [Memory.read]; rw [if_neg (fun e => h e.symm)]; exact ih hm'

theorem Memory.read_write_of_ne {a a' : Nat} {v : Byte} {m : Memory} (h : a' ≠ a) :
    Memory.read (Memory.write m a v) a' = Memory.read m a' := by
  induction m with
  | nil => exact Memory.read_cons_of_ne h
  | cons c m ih =>
    obtain ⟨k, w⟩ := c
    simp only [Memory.write]
    split
    · exact Memory.read_cons_of_ne h
    · split
      · next hk =>
        rw [Memory.read_cons_of_ne h]; simp only [Memory.read]; rw [if_neg (fun e => h (e.symm.trans hk.symm))]
      · simp only [Memory.read, ih]

/-- Equal readings are equal lists: the form is canonical. -/
theorem Memory.eq_of_read_eq {lo : Nat} {m m' : Memory} (hm : Memory.wfFrom lo m = true)
    (hm' : Memory.wfFrom lo m' = true) (h : ∀ a, Memory.read m a = Memory.read m' a) : m = m' := by
  induction m generalizing lo m' with
  | nil =>
    cases m' with
    | nil => rfl
    | cons c m' =>
      obtain ⟨-, -, hv, -⟩ := Memory.wfFrom_cons.1 hm'
      have := h c.1
      simp only [Memory.read, if_true] at this
      exact absurd this.symm hv
  | cons c m ih =>
    obtain ⟨k, v⟩ := c
    obtain ⟨hk, hk2, hv, hmr⟩ := Memory.wfFrom_cons.1 hm
    cases m' with
    | nil =>
      have := h k
      simp only [Memory.read, if_true] at this
      exact absurd this hv
    | cons c' m' =>
      obtain ⟨k', v'⟩ := c'
      obtain ⟨hk', hk2', hv', hmr'⟩ := Memory.wfFrom_cons.1 hm'
      have hkk : k = k' := by
        rcases Nat.lt_trichotomy k k' with hlt | heq | hgt
        · have := h k
          rw [Memory.read_of_lt (Memory.wfFrom_cons.2 ⟨le_rfl, hk2', hv', hmr'⟩) hlt] at this
          simp only [Memory.read, if_true] at this
          exact absurd this hv
        · exact heq
        · have := h k'
          rw [Memory.read_of_lt (Memory.wfFrom_cons.2 ⟨le_rfl, hk2, hv, hmr⟩) hgt] at this
          simp only [Memory.read, if_true] at this
          exact absurd this.symm hv'
      subst hkk
      have hvv : v = v' := by simpa only [Memory.read, if_true] using h k
      subst hvv
      congr 1
      refine ih hmr hmr' fun a => ?_
      by_cases ha : a < k + 1
      · rw [Memory.read_of_lt hmr ha, Memory.read_of_lt hmr' ha]
      · have := h a
        simp only [Memory.read] at this
        rwa [if_neg (by omega), if_neg (by omega)] at this

/-! ### The same through the core's accesses -/

theorem State.memWrite_wf {s : State} (hs : Memory.wf s.mem = true) (a v : Byte) :
    Memory.wf (s.memWrite a v).mem = true :=
  Memory.wf_write hs a.isLt v

theorem State.memRead_memWrite_same {s : State} (hs : Memory.wf s.mem = true) (a v : Byte) :
    (s.memWrite a v).memRead a = v :=
  Memory.read_write_same hs

theorem State.memRead_memWrite_of_ne (s : State) {a a' : Byte} (v : Byte) (h : a' ≠ a) :
    (s.memWrite a v).memRead a' = s.memRead a' :=
  Memory.read_write_of_ne fun e => h (BitVec.eq_of_toNat_eq e)

/-- Load keeps the canonical form. -/
theorem State.load_wf {s : State} (hs : Memory.wf s.mem = true) (a : Byte) (image : List Byte) :
    Memory.wf (s.load a image).mem = true := by
  induction image generalizing s a with
  | nil => exact hs
  | cons v rest ih => exact ih (State.memWrite_wf hs a v) (a + 1)

/-- Storing an instruction at the pc keeps the canonical form. -/
theorem State.storeAtPc_wf {s : State} (hs : Memory.wf s.mem = true) (byte : Nat → Byte) (n : Nat) :
    Memory.wf (s.storeAtPc byte n).mem = true := by
  induction n with
  | zero => exact hs
  | succ n ih => exact State.memWrite_wf ih ..

/-- Load changes memory alone (R301). -/
theorem State.load_frame (s : State) (a : Byte) (image : List Byte) :
    (s.load a image).regs = s.regs ∧ (s.load a image).pc = s.pc ∧ (s.load a image).run = s.run ∧
      (s.load a image).out = s.out ∧ (s.load a image).stop = s.stop := by
  induction image generalizing s a with
  | nil => exact ⟨rfl, rfl, rfl, rfl, rfl⟩
  | cons v rest ih => exact ih (s.memWrite a v) (a + 1)

/-- Storing an instruction at the pc changes memory alone. -/
theorem State.storeAtPc_frame (s : State) (byte : Nat → Byte) (n : Nat) :
    (s.storeAtPc byte n).regs = s.regs ∧ (s.storeAtPc byte n).pc = s.pc ∧ (s.storeAtPc byte n).run = s.run ∧
      (s.storeAtPc byte n).out = s.out ∧ (s.storeAtPc byte n).stop = s.stop := by
  induction n with
  | zero => exact ⟨rfl, rfl, rfl, rfl, rfl⟩
  | succ n ih => exact ih

/-- Construction's memory has the canonical form. -/
theorem State.reset_memWf : Memory.wf State.reset.mem = true := rfl

end Sys2Proof.Machine
end

