-- ==== Sys2Proof/Laws/Registers.lean ====
section
/-! SUPPORT. The register file: reading after writing, and which operand bytes name a register. -/

namespace Sys2Proof.Machine

@[simp] theorem RegFile.read_write_same (x : RegFile) (r : Reg) (v : Byte) : (x.write r v).read r = v := by
  cases r <;> rfl

theorem RegFile.read_write_of_ne (x : RegFile) {r r' : Reg} (v : Byte) (h : r' ≠ r) :
    (x.write r v).read r' = x.read r' := by
  cases r <;> cases r' <;> first | rfl | exact absurd rfl h

/-- Two register files that read alike are equal. -/
theorem RegFile.eq_of_read_eq {x y : RegFile} (h : ∀ r, x.read r = y.read r) : x = y := by
  cases x; cases y
  have h0 := h .r0; have h1 := h .r1; have h2 := h .r2; have h3 := h .r3
  have h4 := h .r4; have h5 := h .r5; have h6 := h .r6; have h7 := h .r7
  simp only [RegFile.read] at h0 h1 h2 h3 h4 h5 h6 h7
  subst h0 h1 h2 h3 h4 h5 h6 h7
  rfl

theorem Reg.index_lt (r : Reg) : r.index < 8 := by cases r <;> decide

theorem Reg.byte_toNat (r : Reg) : r.byte.toNat = r.index := by cases r <;> rfl

theorem Reg.byte_injective {r r' : Reg} (h : r.byte = r'.byte) : r = r' := by
  revert h; cases r <;> cases r' <;> decide

@[simp] theorem Reg.ofIndex_index (r : Reg) : Reg.ofIndex r.index = some r := by cases r <;> rfl

theorem Reg.ofIndex_eq_none {n : Nat} (h : 8 ≤ n) : Reg.ofIndex n = none := by
  unfold Reg.ofIndex
  split <;> first | omega | rfl

/-- Every operand byte below 8 is the byte of a register. -/
theorem Reg.exists_byte {b : Byte} (h : b.toNat < 8) : ∃ r : Reg, b = r.byte := by
  have key : ∀ n, n < 8 → ∃ r : Reg, n = r.index := by
    intro n hn
    match n, hn with
    | 0, _ => exact ⟨.r0, rfl⟩
    | 1, _ => exact ⟨.r1, rfl⟩
    | 2, _ => exact ⟨.r2, rfl⟩
    | 3, _ => exact ⟨.r3, rfl⟩
    | 4, _ => exact ⟨.r4, rfl⟩
    | 5, _ => exact ⟨.r5, rfl⟩
    | 6, _ => exact ⟨.r6, rfl⟩
    | 7, _ => exact ⟨.r7, rfl⟩
  obtain ⟨r, hr⟩ := key b.toNat h
  exact ⟨r, BitVec.eq_of_toNat_eq (hr.trans r.byte_toNat.symm)⟩

@[simp] theorem regOperand_byte (r : Reg) : regOperand r.byte = some r := by cases r <;> rfl

theorem regOperand_eq_none {b : Byte} (h : 8 ≤ b.toNat) : regOperand b = none := Reg.ofIndex_eq_none h

/-- An operand byte names a register or is 8 or more (R92). -/
theorem regOperand_cases (b : Byte) : (∃ r : Reg, b = r.byte) ∨ 8 ≤ b.toNat := by
  by_cases h : b.toNat < 8
  · exact .inl (Reg.exists_byte h)
  · exact .inr (by omega)

@[simp] theorem operandView_chosen (s t : State) : operandView Config.spOperandOrder s t = t := rfl

@[simp] theorem withReg_byte (op : Byte) (r : Reg) (s : State) (go : Reg → Result) :
    withReg op r.byte s go = go r := by
  simp [withReg]

theorem withReg_bad {op b : Byte} (h : 8 ≤ b.toNat) (s : State) (go : Reg → Result) :
    withReg op b s go = .next (s.stopWith .badRegister op) := by
  simp [withReg, regOperand_eq_none h]

/-- Everything the check of one register operand can do (R266). -/
theorem withReg_cases (op b : Byte) (s : State) (go : Reg → Result) :
    (∃ r : Reg, b = r.byte ∧ withReg op b s go = go r) ∨
    (8 ≤ b.toNat ∧ withReg op b s go = .next (s.stopWith .badRegister op)) := by
  obtain ⟨r, rfl⟩ | h := regOperand_cases b
  · exact .inl ⟨r, rfl, withReg_byte ..⟩
  · exact .inr ⟨h, withReg_bad h ..⟩

/-- Everything the check of two register operands can do (R266, R267). -/
theorem withRegs_cases (op a b : Byte) (s : State) (go : Reg → Reg → Result) :
    (∃ ra rb : Reg, a = ra.byte ∧ b = rb.byte ∧ withRegs op a b s go = go ra rb) ∨
    ((8 ≤ a.toNat ∨ 8 ≤ b.toNat) ∧ withRegs op a b s go = .next (s.stopWith .badRegister op)) := by
  obtain ⟨ra, rfl, ha⟩ | ⟨ha, hs⟩ := withReg_cases op a s fun ra => withReg op b s fun rb => go ra rb
  · obtain ⟨rb, rfl, hb⟩ | ⟨hb, hs⟩ := withReg_cases op b s fun rb => go ra rb
    · exact .inl ⟨ra, rb, rfl, rfl, ha.trans hb⟩
    · exact .inr ⟨.inr hb, ha.trans hs⟩
  · exact .inr ⟨.inl ha, hs⟩

end Sys2Proof.Machine
end

