-- ==== Sys2Proof/Laws/State.lean ====
section
/-! SUPPORT. One lemma per field per update of State, so that no later proof unfolds a record update. -/

namespace Sys2Proof.Machine

section
variable (s : State) (r r' : Reg) (a v t : Byte) (n : Nat) (c : StopCause)

/-! ### writeReg -/
@[simp] theorem State.writeReg_pc : (s.writeReg r v).pc = s.pc := rfl
@[simp] theorem State.writeReg_mem : (s.writeReg r v).mem = s.mem := rfl
@[simp] theorem State.writeReg_run : (s.writeReg r v).run = s.run := rfl
@[simp] theorem State.writeReg_out : (s.writeReg r v).out = s.out := rfl
@[simp] theorem State.writeReg_stop : (s.writeReg r v).stop = s.stop := rfl
@[simp] theorem State.writeReg_memRead : (s.writeReg r v).memRead a = s.memRead a := rfl
@[simp] theorem State.readReg_writeReg_same : (s.writeReg r v).readReg r = v :=
  RegFile.read_write_same s.regs r v
theorem State.readReg_writeReg_of_ne {r r' : Reg} (h : r' ≠ r) : (s.writeReg r v).readReg r' = s.readReg r' :=
  RegFile.read_write_of_ne s.regs v h

/-! ### memWrite -/
@[simp] theorem State.memWrite_regs : (s.memWrite a v).regs = s.regs := rfl
@[simp] theorem State.memWrite_pc : (s.memWrite a v).pc = s.pc := rfl
@[simp] theorem State.memWrite_run : (s.memWrite a v).run = s.run := rfl
@[simp] theorem State.memWrite_out : (s.memWrite a v).out = s.out := rfl
@[simp] theorem State.memWrite_stop : (s.memWrite a v).stop = s.stop := rfl
@[simp] theorem State.memWrite_readReg : (s.memWrite a v).readReg r = s.readReg r := rfl

/-! ### setPc and advancePc -/
@[simp] theorem State.setPc_regs : (s.setPc t).regs = s.regs := rfl
@[simp] theorem State.setPc_pc : (s.setPc t).pc = t := rfl
@[simp] theorem State.setPc_mem : (s.setPc t).mem = s.mem := rfl
@[simp] theorem State.setPc_run : (s.setPc t).run = s.run := rfl
@[simp] theorem State.setPc_out : (s.setPc t).out = s.out := rfl
@[simp] theorem State.setPc_stop : (s.setPc t).stop = s.stop := rfl
@[simp] theorem State.setPc_readReg : (s.setPc t).readReg r = s.readReg r := rfl
@[simp] theorem State.setPc_memRead : (s.setPc t).memRead a = s.memRead a := rfl
@[simp] theorem State.advancePc_regs : (s.advancePc n).regs = s.regs := rfl
@[simp] theorem State.advancePc_pc : (s.advancePc n).pc = pcPlus s.pc n := rfl
@[simp] theorem State.advancePc_mem : (s.advancePc n).mem = s.mem := rfl
@[simp] theorem State.advancePc_run : (s.advancePc n).run = s.run := rfl
@[simp] theorem State.advancePc_out : (s.advancePc n).out = s.out := rfl
@[simp] theorem State.advancePc_stop : (s.advancePc n).stop = s.stop := rfl
@[simp] theorem State.advancePc_readReg : (s.advancePc n).readReg r = s.readReg r := rfl
@[simp] theorem State.advancePc_memRead : (s.advancePc n).memRead a = s.memRead a := rfl

/-! ### emit -/
@[simp] theorem State.emit_regs : (s.emit v).regs = s.regs := rfl
@[simp] theorem State.emit_pc : (s.emit v).pc = s.pc := rfl
@[simp] theorem State.emit_mem : (s.emit v).mem = s.mem := rfl
@[simp] theorem State.emit_run : (s.emit v).run = s.run := rfl
@[simp] theorem State.emit_out : (s.emit v).out = s.out ++ [v] := rfl
@[simp] theorem State.emit_stop : (s.emit v).stop = s.stop := rfl
@[simp] theorem State.emit_readReg : (s.emit v).readReg r = s.readReg r := rfl
@[simp] theorem State.emit_memRead : (s.emit v).memRead a = s.memRead a := rfl

/-! ### decSp and incSp -/
@[simp] theorem State.decSp_pc : s.decSp.pc = s.pc := rfl
@[simp] theorem State.decSp_mem : s.decSp.mem = s.mem := rfl
@[simp] theorem State.decSp_run : s.decSp.run = s.run := rfl
@[simp] theorem State.decSp_out : s.decSp.out = s.out := rfl
@[simp] theorem State.decSp_stop : s.decSp.stop = s.stop := rfl
@[simp] theorem State.decSp_sp : s.decSp.readReg .r7 = s.readReg .r7 - 1 := rfl
@[simp] theorem State.decSp_memRead : s.decSp.memRead a = s.memRead a := rfl
theorem State.decSp_readReg_of_ne {r : Reg} (h : r ≠ .r7) : s.decSp.readReg r = s.readReg r :=
  RegFile.read_write_of_ne s.regs _ h
@[simp] theorem State.incSp_pc : s.incSp.pc = s.pc := rfl
@[simp] theorem State.incSp_mem : s.incSp.mem = s.mem := rfl
@[simp] theorem State.incSp_run : s.incSp.run = s.run := rfl
@[simp] theorem State.incSp_out : s.incSp.out = s.out := rfl
@[simp] theorem State.incSp_stop : s.incSp.stop = s.stop := rfl
@[simp] theorem State.incSp_sp : s.incSp.readReg .r7 = s.readReg .r7 + 1 := rfl
@[simp] theorem State.incSp_memRead : s.incSp.memRead a = s.memRead a := rfl
theorem State.incSp_readReg_of_ne {r : Reg} (h : r ≠ .r7) : s.incSp.readReg r = s.readReg r :=
  RegFile.read_write_of_ne s.regs _ h

/-! ### stopWith (R260, R265) -/
@[simp] theorem State.stopWith_regs : (s.stopWith c v).regs = s.regs := rfl
@[simp] theorem State.stopWith_pc : (s.stopWith c v).pc = s.pc := rfl
@[simp] theorem State.stopWith_mem : (s.stopWith c v).mem = s.mem := rfl
@[simp] theorem State.stopWith_run : (s.stopWith c v).run = .stopped := rfl
@[simp] theorem State.stopWith_out : (s.stopWith c v).out = s.out := rfl
@[simp] theorem State.stopWith_stop :
    (s.stopWith c v).stop = some { cause := c, opcode := v, atPc := s.pc, status := c.status } := rfl
@[simp] theorem State.stopWith_readReg : (s.stopWith c v).readReg r = s.readReg r := rfl
@[simp] theorem State.stopWith_memRead : (s.stopWith c v).memRead a = s.memRead a := rfl

end

@[simp] theorem pcPlus_zero (pc : Byte) : pcPlus pc 0 = pc := by simp [pcPlus]

end Sys2Proof.Machine
end

