-- ==== Sys2Proof/Laws/Exec.lean ====
section
/-! SUPPORT. What each meaning answers on register operands, what all of them answer on a bad one, and what a step can
do. Proofs about the machine cite these and do not unfold the meanings. -/

namespace Sys2Proof.Machine

/-! ### The ALU's arithmetic -/

theorem fAdd_eq (va vb : Byte) : fAdd va vb = va + vb := by
  apply BitVec.eq_of_toNat_eq
  simp [fAdd, BitVec.toNat_add]

theorem fSub_eq (va vb : Byte) : fSub va vb = va - vb := by
  apply BitVec.eq_of_toNat_eq
  simp only [fSub, BitVec.toNat_ofNat, BitVec.toNat_sub]
  omega

theorem fMul_eq (va vb : Byte) : fMul va vb = va * vb := by
  apply BitVec.eq_of_toNat_eq
  simp [fMul, BitVec.toNat_mul]

theorem fDiv_eq (va vb : Byte) : fDiv va vb = va / vb := by
  apply BitVec.eq_of_toNat_eq
  have : va.toNat / vb.toNat < 2 ^ 8 := Nat.lt_of_le_of_lt (Nat.div_le_self ..) va.isLt
  rw [fDiv, BitVec.toNat_ofNat, BitVec.toNat_udiv, Nat.mod_eq_of_lt this]

/-! ### Each meaning on register operands -/

section
variable (s : State) (r ra rb : Reg) (imm : Byte)

theorem execLdi_byte : execLdi r.byte imm s = .next ((s.writeReg r imm).advancePc 3) := by
  simp [execLdi]

theorem execPrn_byte : execPrn r.byte s = .next ((s.emit (s.readReg r)).advancePc 2) := by
  simp [execPrn]

/-- Everything the ALU can do with two registers, for an opcode that selects an operation (R160). -/
theorem alu_byte {opcode : Byte} {op : AluOp} (h : AluOp.ofSelector (opcodeI opcode) = some op) :
    alu opcode ra.byte rb.byte s =
      match aluResult op (s.readReg ra) (s.readReg rb) with
      | none => .next (s.stopWith .divByZero opcode)
      | some v => .next ((s.writeReg ra v).advancePc 3) := by
  cases hres : aluResult op (s.readReg ra) (s.readReg rb) <;> simp [alu, withRegs, h, hres]

theorem execAdd_byte : execAdd ra.byte rb.byte s =
    .next ((s.writeReg ra (s.readReg ra + s.readReg rb)).advancePc 3) := by
  rw [execAdd, alu_byte s ra rb (op := .add) rfl]
  simp [aluResult, fAdd_eq]

theorem execSub_byte : execSub ra.byte rb.byte s =
    .next ((s.writeReg ra (s.readReg ra - s.readReg rb)).advancePc 3) := by
  rw [execSub, alu_byte s ra rb (op := .sub) rfl]
  simp [aluResult, fSub_eq]

theorem execMul_byte : execMul ra.byte rb.byte s =
    .next ((s.writeReg ra (s.readReg ra * s.readReg rb)).advancePc 3) := by
  rw [execMul, alu_byte s ra rb (op := .mul) rfl]
  simp [aluResult, fMul_eq]

theorem execDiv_byte (h : s.readReg rb ≠ 0#8) : execDiv ra.byte rb.byte s =
    .next ((s.writeReg ra (s.readReg ra / s.readReg rb)).advancePc 3) := by
  rw [execDiv, alu_byte s ra rb (op := .div) rfl]
  simp [aluResult, fDiv_eq, h]

theorem execDiv_zero (h : s.readReg rb = 0#8) : execDiv ra.byte rb.byte s =
    .next (s.stopWith .divByZero Mnemonic.div.opcode) := by
  rw [execDiv, alu_byte s ra rb (op := .div) rfl]
  simp [aluResult, h]

theorem execPush_byte : execPush r.byte s =
    .next ((s.decSp.memWrite (s.sp - 1) (s.decSp.readReg r)).advancePc 2) := by
  simp [execPush, State.sp]

theorem execPop_byte : execPop r.byte s =
    .next ((s.writeReg r (s.memRead s.sp)).incSp.advancePc 2) := by
  simp [execPop]

theorem execCall_byte : execCall r.byte s =
    .next ((s.decSp.memWrite (s.sp - 1) (pcPlus s.pc 2)).setPc (s.decSp.readReg r)) := by
  simp [execCall, State.sp]

end

/-! ### All of them on a bad operand (R266, R267) -/

theorem withRegs_bad {op a b : Byte} (h : 8 ≤ a.toNat ∨ 8 ≤ b.toNat) (s : State) (go : Reg → Reg → Result) :
    withRegs op a b s go = .next (s.stopWith .badRegister op) := by
  obtain ⟨ra, rb, rfl, rfl, -⟩ | ⟨-, hs⟩ := withRegs_cases op a b s go
  · rw [Reg.byte_toNat, Reg.byte_toNat] at h
    have := ra.index_lt; have := rb.index_lt
    omega
  · exact hs

/-- An instruction is well-formed, or one of its register operand bytes is 8 or more. -/
theorem wellFormed_eq_false {i : Instr} : i.wellFormed = false ↔ ∃ b ∈ i.regOperands, 8 ≤ b.toNat := by
  simp [Instr.wellFormed]

/-! ### Well-formed operands are registers -/

theorem exists_byte_of_wellFormed {b : Byte} {i : Instr} (h : i.wellFormed = true) (hb : b ∈ i.regOperands) :
    ∃ r : Reg, b = r.byte := by
  refine Reg.exists_byte ?_
  have := List.all_eq_true.1 h b hb
  simpa using this

/-! ### Fetch and step -/

/-- What is fetched depends on the pc and memory alone. -/
theorem fetch_congr {s t : State} (hpc : t.pc = s.pc) (hmem : t.mem = s.mem) : t.fetch = s.fetch := by
  simp [State.fetch, State.fetchByte, State.memRead, hpc, hmem]

theorem fetch_opcode {s : State} {i : Instr} (h : s.fetch = some i) : i.opcode = s.fetchByte 0 :=
  decodeInstr_opcode_eq h

theorem step_stopped {s : State} (h : s.run = .stopped) : step s = .fault .stopped := by
  simp [step, h]

/-- Everything a step that answers a next state did (R16, R97). -/
theorem step_cases {s t : State} (h : step s = .next t) :
    s.run = .running ∧
      ((s.fetch = none ∧ t = unknownOpcodeStop s) ∨ (∃ i, s.fetch = some i ∧ exec i s = .next t)) := by
  cases hr : s.run with
  | stopped => rw [step_stopped hr] at h; cases h
  | running =>
    refine ⟨rfl, ?_⟩
    cases hf : s.fetch with
    | none =>
      simp only [step, hr, hf] at h
      exact .inl ⟨rfl, by injection h with h; exact h.symm⟩
    | some i =>
      simp only [step, hr, hf] at h
      exact .inr ⟨i, rfl, h⟩

/-! ### Runs -/

@[simp] theorem core_run_zero (s : State) : Sys2Proof.core.run 0 s = .next s := rfl

/-- A run whose first step answers a next state goes on from there. -/
theorem core_run_succ {s t : State} (n : Nat) (h : step s = .next t) :
    Sys2Proof.core.run (n + 1) s = Sys2Proof.core.run n t := by
  have hs : Sys2Proof.core.step s = .next t := h
  simp only [Host.Core.run, hs]

/-! ### pc arithmetic -/

theorem pcPlus_one (pc : Byte) : pcPlus pc 1 = pc + 1 := rfl
theorem pcPlus_two (pc : Byte) : pcPlus pc 2 = pc + 2 := rfl
theorem pcPlus_three (pc : Byte) : pcPlus pc 3 = pc + 3 := rfl

/-- Byte 0 of the instruction at the pc is the byte at the pc. -/
@[simp] theorem fetchByte_zero (s : State) : s.fetchByte 0 = s.memRead s.pc := by simp [State.fetchByte]

end Sys2Proof.Machine
end

