-- ==== Sys2Proof/Laws/PerInstr.lean ====
section
/-! SUPPORT. Facts about every instruction as syntax, one lemma per constructor. Family `EncodeLength`: an encoding is as
long as its own opcode byte says (30_encoding.md R96), and its register operands are the first of its operand bytes (R94). -/

namespace Sys2Proof.Laws.EncodeLength

/-- The encoding of `i` has the length of its opcode byte, and its operand bytes begin with its register operands. -/
def Statement (i : Instr) : Prop :=
  (encode i).length = instrLength i.opcode ∧ i.regOperands <+: i.operands

theorem ldi (rA imm : Byte) : Statement (.ldi rA imm) := ⟨instrLength_ldi.symm, [imm], rfl⟩
theorem prn (rA : Byte) : Statement (.prn rA) := ⟨instrLength_prn.symm, [], rfl⟩
theorem hlt : Statement .hlt := ⟨instrLength_hlt.symm, [], rfl⟩
theorem add (rA rB : Byte) : Statement (.add rA rB) := ⟨instrLength_add.symm, [], rfl⟩
theorem sub (rA rB : Byte) : Statement (.sub rA rB) := ⟨instrLength_sub.symm, [], rfl⟩
theorem mul (rA rB : Byte) : Statement (.mul rA rB) := ⟨instrLength_mul.symm, [], rfl⟩
theorem div (rA rB : Byte) : Statement (.div rA rB) := ⟨instrLength_div.symm, [], rfl⟩
theorem push (rA : Byte) : Statement (.push rA) := ⟨instrLength_push.symm, [], rfl⟩
theorem pop (rA : Byte) : Statement (.pop rA) := ⟨instrLength_pop.symm, [], rfl⟩
theorem call (rA : Byte) : Statement (.call rA) := ⟨instrLength_call.symm, [], rfl⟩
theorem ret : Statement .ret := ⟨instrLength_ret.symm, [], rfl⟩

end Sys2Proof.Laws.EncodeLength
end

