-- ==== Sys2Proof/Tests/Slice0.lean ====
section
/-! SUPPORT. Tests with expected results from the spec (30_encoding.md R91 for words, 95_test_vectors.md V1 to V61 for steps; the
vector is named at each), the WellFormed smoke test, and a witness for the hypotheses of every statement of
Certificates/Slice0/Obligations.lean that has any. -/

namespace Sys2Proof.Tests

open Sys2Proof Sys2Proof.Machine

/-! ### WellFormed: one ill-formed term for each register operand position -/

theorem test_illFormed_ldi_a : (Instr.ldi 8 1).wellFormed = false := by decide
theorem test_illFormed_prn_a : (Instr.prn 255).wellFormed = false := by decide
theorem test_illFormed_add_a : (Instr.add 8 0).wellFormed = false := by decide
theorem test_illFormed_add_b : (Instr.add 0 9).wellFormed = false := by decide
theorem test_illFormed_sub_b : (Instr.sub 7 8).wellFormed = false := by decide
theorem test_illFormed_mul_a : (Instr.mul 128 7).wellFormed = false := by decide
theorem test_illFormed_div_b : (Instr.div 0 8).wellFormed = false := by decide
theorem test_illFormed_push_a : (Instr.push 8).wellFormed = false := by decide
theorem test_illFormed_pop_a : (Instr.pop 8).wellFormed = false := by decide
theorem test_illFormed_call_a : (Instr.call 9).wellFormed = false := by decide
theorem test_wellFormed_immediate_is_free : (Instr.ldi 7 255).wellFormed = true := by decide
theorem test_wellFormed_no_operand : Instr.hlt.wellFormed = true ∧ Instr.ret.wellFormed = true := by decide

/-! ### Decoding: every constructor's word, bit by bit from R91 and the opcode table -/

theorem test_decode_ldi : decodeInstr 0b10000010#8 0b00000000#8 0b00001000#8 = some (.ldi 0 8) := by decide
theorem test_decode_prn : decodeInstr 0b01000111#8 0b00000111#8 0b11111111#8 = some (.prn 7) := by decide
theorem test_decode_hlt : decodeInstr 0b00000001#8 0b11111111#8 0b11111111#8 = some .hlt := by decide
theorem test_decode_add : decodeInstr 0b10100000#8 0b00000001#8 0b00000010#8 = some (.add 1 2) := by decide
theorem test_decode_sub : decodeInstr 0b10100001#8 0b00000001#8 0b00000010#8 = some (.sub 1 2) := by decide
theorem test_decode_mul : decodeInstr 0b10100010#8 0b00000000#8 0b00000001#8 = some (.mul 0 1) := by decide
theorem test_decode_div : decodeInstr 0b10100011#8 0b00000110#8 0b00000101#8 = some (.div 6 5) := by decide
theorem test_decode_push : decodeInstr 0b01000101#8 0b00000010#8 0b00000000#8 = some (.push 2) := by decide
theorem test_decode_pop : decodeInstr 0b01000110#8 0b00000101#8 0b00000000#8 = some (.pop 5) := by decide
theorem test_decode_call : decodeInstr 0b01010000#8 0b00000001#8 0b00000000#8 = some (.call 1) := by decide
theorem test_decode_ret : decodeInstr 0b00010001#8 0b00000001#8 0b00000001#8 = some .ret := by decide

/-- V56 to V61 and the two other examples of R99. -/
theorem test_decode_illegal :
    ∀ op ∈ [0x00#8, 0xFF#8, 0xA4#8, 0xA8#8, 0x10#8, 0x54#8, 0xC2#8], decodeInstr op 0 0 = none := by decide

/-- R99: 245 of the 256 byte values are illegal. -/
theorem test_illegal_count :
    ((List.range 256).filter fun n => (decodeRow (BitVec.ofNat 8 n)).isNone).length = 245 := by
  decide +kernel

/-- R91: the fields `N`, `A`, `P`, `I` of CALL and of DIV. -/
theorem test_opcode_fields :
    (opcodeN 0x50#8, opcodeA 0x50#8, opcodeP 0x50#8, opcodeI 0x50#8) = (1, false, true, 0b0000#4) ∧
    (opcodeN 0xA3#8, opcodeA 0xA3#8, opcodeP 0xA3#8, opcodeI 0xA3#8) = (2, true, false, 0b0011#4) := by decide

theorem test_decode_list : decode [0x82#8, 0x07#8, 0x09#8, 0x45#8] = .ok (.ldi 7 9, [0x45#8]) := by rfl
theorem test_decode_truncated : decode [0x82#8, 0x07#8] = .error (.truncated 0x82#8) := by rfl
theorem test_decode_unknown : decode [0xA4#8, 0, 0] = .error (.unknownOpcode 0xA4#8) := by rfl

/-- Bits count from the first byte: `82 00 08` as one number. -/
theorem test_tableWord : decodeTableWord 24 0x080082 = some (.ldi 0 8) ∧ decodeTableWord 8 0x082 = some (.ldi 0 0) := by
  decide

/-! ### One step, vectors of 95_test_vectors.md -/

/-- Construction's state with registers, a pc, and bytes at the pc. -/
def start (regs : RegFile) (pc : Byte) (bytes : List Byte) : State :=
  { State.reset with regs := regs, pc := pc }.load pc bytes

/-- `start` with one more memory byte. -/
def startWith (regs : RegFile) (pc : Byte) (bytes : List Byte) (a v : Byte) : State :=
  (start regs pc bytes).memWrite a v

/-- What `f` sees of the next state of one step. -/
def after {α : Type} (s : State) (f : State → α) : Option α := (nextState (step s)).map f

/-- The registers of construction. -/
def x : RegFile := RegFile.reset

/-- V2. -/
theorem test_ldi_wraps_the_pc :
    after (start x 0xFE [0x82, 0x00, 0x2A]) (fun t => (t.readReg .r0, t.pc)) = some (0x2A#8, 0x01#8) := by decide
/-- V4. -/
theorem test_ldi_bad_register :
    after (start x 0 [0x82, 0x08, 0x01]) (fun t => (t.regs, t.pc, t.stop)) =
      some (x, 0x00#8, some ⟨.badRegister, 0x82#8, 0x00#8, 1⟩) := by decide
/-- V7. -/
theorem test_prn_sp : after (start x 0 [0x47, 0x07]) (fun t => (t.out, t.pc)) = some ([244#8], 0x02#8) := by decide
/-- V9. -/
theorem test_prn_wraps_the_pc :
    after (start { x with r3 := 9 } 0xFF [0x47, 0x03]) (fun t => (t.out, t.pc)) = some ([9#8], 0x01#8) := by decide
/-- V10. -/
theorem test_hlt :
    after (start x 5 [0x01]) (fun t => (t.run, t.pc, t.stop)) =
      some (.stopped, 0x05#8, some ⟨.halt, 0x01#8, 0x05#8, 0⟩) := by decide
/-- V12. -/
theorem test_add_wraps :
    after (start { x with r0 := 0xFF, r1 := 1 } 0 [0xA0, 0, 1]) (fun t => (t.readReg .r0, t.pc)) = some (0x00#8, 0x03#8) := by
  decide
/-- V14. -/
theorem test_add_same_register :
    after (start { x with r0 := 0x81 } 0 [0xA0, 0, 0]) (fun t => t.readReg .r0) = some 0x02#8 := by decide
/-- V19. -/
theorem test_sub_borrows :
    after (start { x with r0 := 7, r1 := 9 } 0 [0xA1, 0, 1]) (fun t => (t.readReg .r0, t.readReg .r1)) =
      some (0xFE#8, 9#8) := by decide
/-- V26. -/
theorem test_mul_low_byte :
    after (start { x with r0 := 0xC8, r1 := 2 } 0 [0xA2, 0, 1]) (fun t => t.readReg .r0) = some 0x90#8 := by decide
/-- V28. -/
theorem test_div_floor :
    after (start { x with r0 := 0xFA, r2 := 3 } 0 [0xA3, 0, 2]) (fun t => t.readReg .r0) = some 0x53#8 := by decide
/-- V34. -/
theorem test_div_by_zero :
    after (start { x with r0 := 0x2A } 0x10 [0xA3, 0, 1]) (fun t => (t.readReg .r0, t.pc, t.stop)) =
      some (0x2A#8, 0x10#8, some ⟨.divByZero, 0xA3#8, 0x10#8, 1⟩) := by decide
/-- V38: BAD_REGISTER beats DIV_BY_ZERO. -/
theorem test_bad_register_before_div_by_zero :
    after (start x 0 [0xA3, 8, 0]) (fun t => t.stop) = some (some ⟨.badRegister, 0xA3#8, 0x00#8, 1⟩) := by decide
/-- V41. -/
theorem test_push_wraps_sp :
    after (start { x with r1 := 5, r7 := 0 } 0 [0x45, 1]) (fun t => (t.sp, t.memRead 0xFF, t.pc)) =
      some (0xFF#8, 0x05#8, 0x02#8) := by decide
/-- V42. -/
theorem test_push_sp :
    after (start x 0 [0x45, 7]) (fun t => (t.sp, t.memRead 0xF3)) = some (0xF3#8, 0xF3#8) := by decide
/-- V45. -/
theorem test_pop_wraps_sp :
    after (startWith { x with r7 := 0xFF } 0 [0x46, 0] 0xFF 0x07) (fun t => (t.readReg .r0, t.sp)) =
      some (0x07#8, 0x00#8) := by decide
/-- V47. -/
theorem test_pop_sp :
    after (startWith { x with r7 := 0xF3 } 0 [0x46, 7] 0xF3 0x40) (fun t => (t.sp, t.pc)) = some (0x41#8, 0x02#8) := by
  decide
/-- V49. -/
theorem test_call_return_address_wraps :
    after (start { x with r2 := 0x20 } 0xFE [0x50, 2]) (fun t => (t.sp, t.memRead 0xF3, t.pc)) =
      some (0xF3#8, 0x00#8, 0x20#8) := by decide
/-- V50. -/
theorem test_call_sp :
    after (start x 0 [0x50, 7]) (fun t => (t.sp, t.memRead 0xF3, t.pc)) = some (0xF3#8, 0x02#8, 0xF3#8) := by decide
/-- V53. -/
theorem test_ret :
    after (startWith { x with r7 := 0xF3 } 0x20 [0x11] 0xF3 8) (fun t => (t.sp, t.pc, t.memRead 0xF3)) =
      some (0xF4#8, 0x08#8, 0x08#8) := by decide
/-- V55. -/
theorem test_ret_wraps_sp :
    after (startWith { x with r7 := 0xFF } 0x20 [0x11] 0xFF 0x10) (fun t => (t.sp, t.pc)) = some (0x00#8, 0x10#8) := by
  decide
/-- V58. -/
theorem test_unknown_opcode :
    after (start x 0 [0xA4]) (fun t => (t.run, t.stop)) =
      some (.stopped, some ⟨.unknownOpcode, 0xA4#8, 0x00#8, 1⟩) := by decide

/-- The table word of V3, `82 07 10`, is the first instruction after reset, and a word of the opcode alone is LDI R0,0. -/
theorem test_withFetchWord :
    after (State.reset.withFetchWord 24 0x100782) (fun t => (t.sp, t.pc)) = some (0x10#8, 0x03#8) ∧
    after (State.reset.withFetchWord 8 0x82) (fun t => (t.sp, t.pc)) = some (0xF4#8, 0x03#8) := by decide

/-- R16: a STOPPED state takes no step. -/
theorem test_stopped_takes_no_step : nextState (step { State.reset with run := .stopped }) = none := by decide

/-- D4's alternative: under `mask3` the operand byte 9 names R1. -/
theorem test_mask3 : regOperandIn .mask3 9 = some .r1 ∧ regOperandIn .fault 9 = none := by decide

/-- R133: "72" and a newline, as in the end-to-end example. -/
theorem test_render : renderOut [72#8, 0#8] = "72\n0\n" := by decide

/-- R101, the style of the source's example. -/
theorem test_asm : asmText (.ldi 0 8) = "LDI R0,8" ∧ asmText (.mul 0 1) = "MUL R0,R1" := by decide

/-- R280: the bytes of the instruction about to run. -/
theorem test_trace :
    (start x 0xFE [0x82, 0x00, 0x2A]).traceTuple = { pc := 0xFE, m0 := 0x82, m1 := 0x00, m2 := 0x2A, regs := x } := by decide

/-! ### Witnesses: states and operands that meet the hypotheses of the statements -/

theorem witness_launch_longest : (List.replicate 256 0xFF#8).length ≤ 256 := by rw [List.length_replicate]
theorem witness_launch_empty : ([] : List Byte).length ≤ 256 := by decide
theorem witness_launch_too_long : 256 < (List.replicate 257 0xFF#8).length := by rw [List.length_replicate]; decide

theorem witness_decodeAndEncodeAgree :
    decode [0x11#8] = .ok (.ret, []) ∧ decode [0x47#8, 0xFF#8] = .ok (.prn 0xFF, []) ∧
    decode [0xA3#8, 0, 8, 1] = .ok (.div 0 8, [1]) := ⟨rfl, rfl, rfl⟩

theorem witness_opcodeMap_illegal :
    ∀ op ∈ [0x00#8, 0xFF#8, 0xA4#8],
      op ∉ [0x01#8, 0x11#8, 0x45#8, 0x46#8, 0x47#8, 0x50#8, 0x82#8, 0xA0#8, 0xA1#8, 0xA2#8, 0xA3#8] := by decide

theorem witness_length :
    decodeRow 0x82#8 = some ⟨.ldi, .f2, 0xFF, 0x82⟩ ∧ decodeInstr 0x82#8 7 255 = some (.ldi 7 255) := by decide

theorem witness_opcodeBits :
    decodeInstr 0xA3#8 0 1 = some (.div 0 1) ∧ decodeInstr 0x50#8 1 0 = some (.call 1) ∧
    decodeInstr 0x11#8 0 0 = some .ret ∧ decodeInstr 0x82#8 0 0 = some (.ldi 0 0) := by decide

theorem witness_unusedOperands : opcodeN 0x47#8 ≤ 1 ∧ opcodeN 0x01#8 = 0 := by decide

/-- At the top of memory, where the operands wrap. -/
def ldiAtTop : State := start x 0xFE [0x82, 0x00, 0x2A]

theorem witness_stepRuns :
    ldiAtTop.run = .running ∧
    decodeInstr (ldiAtTop.memRead ldiAtTop.pc) (ldiAtTop.memRead (ldiAtTop.pc + 1)) (ldiAtTop.memRead (ldiAtTop.pc + 2)) =
      some (.ldi 0 0x2A) ∧
    decode [ldiAtTop.memRead ldiAtTop.pc, ldiAtTop.memRead (ldiAtTop.pc + 1), ldiAtTop.memRead (ldiAtTop.pc + 2)] =
      .ok (.ldi 0 0x2A, []) := ⟨by decide, by decide, by rfl⟩

theorem witness_stepGoesOn : State.reset.run = .running := by decide
theorem witness_stepStopped : ∃ s, step (start x 5 [0x01]) = .next s ∧ s.run = .stopped := ⟨_, rfl, by decide⟩

theorem witness_unknownOpcode :
    State.reset.run = .running ∧
    State.reset.memRead State.reset.pc ∉
      [0x82#8, 0x47#8, 0x01#8, 0xA0#8, 0xA1#8, 0xA2#8, 0xA3#8, 0x45#8, 0x46#8, 0x50#8, 0x11#8] := by decide

theorem witness_badRegister :
    (∃ b ∈ (Instr.div 8 0).regOperands, 8 ≤ b.toNat) ∧ (∃ b ∈ (Instr.add 7 8).regOperands, 8 ≤ b.toNat) ∧
    (∃ b ∈ (Instr.ldi 255 0).regOperands, 8 ≤ b.toNat) := by decide

/-- Each cause but the unreachable one is due somewhere, and none is due somewhere. -/
theorem witness_dueStop :
    dueStop State.reset = some .unknownOpcode ∧ dueStop (start x 5 [0x01]) = some .halt ∧
    dueStop (start x 0 [0xA3, 0, 8]) = some .badRegister ∧ dueStop (start x 0 [0xA3, 0, 0]) = some .divByZero ∧
    dueStop (start x 0 [0xA3, 0, 7]) = none ∧ (start x 0 [0xA3, 0, 7]).run = .running := by decide

theorem witness_stopsArePrecise : ∃ t, step State.reset = .next t ∧ t.run = .stopped := ⟨_, rfl, by decide⟩

theorem witness_stepKeepsTheInvariant : Inv ldiAtTop ∧ ∃ t, step ldiAtTop = .next t :=
  ⟨⟨by decide, by decide, fun _ h => nomatch h⟩, _, rfl⟩

theorem witness_fetchWord :
    Memory.wf State.reset.mem = true ∧ decodeTableWord 16 0x0747 = some (.prn 7) ∧
    decodeTableWord 8 0x11 = some .ret ∧ decodeTableWord 24 0xFF07A0 = some (.add 7 255) := by decide

theorem witness_div_divides : (start { x with r0 := 255, r1 := 1 } 0 []).readReg .r1 ≠ 0x00#8 := by decide
theorem witness_div_stops : (start { x with r0 := 255 } 0 []).readReg .r1 = 0x00#8 := by decide
theorem witness_twosComplement_div :
    (start { x with r0 := 0xFE, r1 := 2 } 0 []).readReg .r0 = 0xFE#8 ∧
    (start { x with r0 := 0xFE, r1 := 2 } 0 []).readReg .r1 = 0x02#8 := by decide

theorem witness_aluSelectors :
    decodeInstr 0xA3#8 0 1 = some (.div 0 1) ∧ opcodeA 0xA3#8 = true ∧
    opcodeI 0xA4#8 ∉ [0b0000#4, 0b0001#4, 0b0010#4, 0b0011#4] ∧
    opcodeI 0xAF#8 ∉ [0b0000#4, 0b0001#4, 0b0010#4, 0b0011#4] ∧
    opcodeI 0xA0#8 ∈ [0b0000#4, 0b0001#4, 0b0010#4, 0b0011#4] ∧
    opcodeI 0xA3#8 ∈ [0b0000#4, 0b0001#4, 0b0010#4, 0b0011#4] ∧ State.reset.stop = none := by decide

theorem witness_unsupportedAluNeverArises :
    (∃ t, step State.reset = .next t) ∧ ∀ rec, State.reset.stop = some rec → rec.cause ≠ .unsupportedAlu :=
  ⟨⟨_, rfl⟩, fun _ h => nomatch h⟩

/-- SP at both ends of its range, for PUSH, CALL and what rests on them. -/
theorem witness_stack :
    Memory.wf (start { x with r7 := 0 } 0 [0x45, 1]).mem = true ∧
    Memory.wf (startWith { x with r7 := 0xFF } 0xFE [0x50, 1] 0xFF 7).mem = true ∧ Reg.r0 ≠ .r7 ∧ Reg.r6 ≠ .r7 := by decide

/-- Code after the CALL that leaves SP and the byte there: none at all. -/
theorem witness_retReturns :
    ∃ t, exec (.call Reg.r1.byte) State.reset = .next t ∧
      ∃ u : State, u.readReg .r7 = t.readReg .r7 ∧ u.memRead (u.readReg .r7) = t.memRead (t.readReg .r7) :=
  ⟨_, rfl, _, rfl, rfl⟩

theorem witness_output_launch : ∃ t, launch [0x01] = .next t := ⟨_, rfl⟩
theorem witness_output_prn : (∃ t, step (start x 0 [0x47, 7]) = .next t) ∧
    (start x 0 [0x47, 7]).memRead (start x 0 [0x47, 7]).pc = 0x47#8 ∧
    (start x 0 [0x47, 7]).memRead ((start x 0 [0x47, 7]).pc + 1) = Reg.r7.byte := ⟨⟨_, rfl⟩, by decide⟩
theorem witness_output_bad_prn : (∃ t, step (start x 0 [0x47, 8]) = .next t) ∧
    ¬ ((start x 0 [0x47, 8]).memRead (start x 0 [0x47, 8]).pc = 0x47#8 ∧
      ((start x 0 [0x47, 8]).memRead ((start x 0 [0x47, 8]).pc + 1)).toNat < 8) := ⟨⟨_, rfl⟩, by decide⟩

theorem witness_memory_push :
    ∃ t, step (start x 0 [0x45, 7]) = .next t ∧ t.memRead 0xF3 ≠ (start x 0 [0x45, 7]).memRead 0xF3 := ⟨_, rfl, by decide⟩
theorem witness_memory_call :
    ∃ t, step (start x 0 [0x50, 7]) = .next t ∧ t.memRead 0xF3 ≠ (start x 0 [0x50, 7]).memRead 0xF3 := ⟨_, rfl, by decide⟩

theorem witness_registers_sp :
    ∃ t, step (start x 0 [0x11]) = .next t ∧ t.readReg .r7 ≠ (start x 0 [0x11]).readReg .r7 := ⟨_, rfl, by decide⟩
theorem witness_registers_destination :
    ∃ t, step ldiAtTop = .next t ∧ t.readReg .r0 ≠ ldiAtTop.readReg .r0 := ⟨_, rfl, by decide⟩

theorem witness_control_goes_on :
    ∃ t, step ldiAtTop = .next t ∧ t.run = .running ∧
      ldiAtTop.memRead ldiAtTop.pc ≠ 0x50#8 ∧ ldiAtTop.memRead ldiAtTop.pc ≠ 0x11#8 := ⟨_, rfl, by decide⟩
theorem witness_control_stops : ∃ t, step State.reset = .next t ∧ t.run = .stopped := ⟨_, rfl, by decide⟩

/-- The PUSH of program P6: its byte 01 lands on the next opcode address. -/
def pushOntoNext : State := start { x with r0 := 1, r7 := 9 } 6 [0x45, 0]

theorem witness_nextFetch :
    Memory.wf pushOntoNext.mem = true ∧ pushOntoNext.run = .running ∧ Reg.r0 ≠ .r7 ∧
    pushOntoNext.memRead pushOntoNext.pc = 0x45#8 ∧ pushOntoNext.memRead (pushOntoNext.pc + 1) = Reg.r0.byte ∧
    pushOntoNext.readReg .r7 - 1 = pushOntoNext.pc + 2 ∧ pushOntoNext.readReg .r0 = 0x01#8 := by decide

/-- A CALL to its own address, at 6. -/
def selfCall (sp : Byte) : State := start { x with r0 := 6, r7 := sp } 6 [0x50, 0]

theorem witness_selfCallAt : SelfCallAt .r0 (selfCall 0xF4) :=
  ⟨by decide, by decide, by decide, by decide, by decide, by decide⟩

/-- The bound is 236 steps at the reset SP. -/
theorem witness_selfCallRuns :
    SelfCallAt .r0 (selfCall 0xF4) ∧ (selfCall 0xF4).readReg .r7 ≠ (selfCall 0xF4).pc + 1 ∧
    236 ≤ ((selfCall 0xF4).readReg .r7 - ((selfCall 0xF4).pc + 2)).toNat :=
  ⟨witness_selfCallAt, by decide⟩

/-- The bound is 254 steps at most, with SP at the CALL's opcode byte. -/
theorem witness_selfCallRuns_longest :
    SelfCallAt .r0 (selfCall 6) ∧ (selfCall 6).readReg .r7 ≠ (selfCall 6).pc + 1 ∧
    254 ≤ ((selfCall 6).readReg .r7 - ((selfCall 6).pc + 2)).toNat :=
  ⟨⟨by decide, by decide, by decide, by decide, by decide, by decide⟩, by decide⟩

/-- The bound is 0 where the next push would hit the CALL's operand byte. -/
theorem witness_selfCallRuns_shortest :
    SelfCallAt .r0 (selfCall 8) ∧ (selfCall 8).readReg .r7 ≠ (selfCall 8).pc + 1 ∧
    0 ≤ ((selfCall 8).readReg .r7 - ((selfCall 8).pc + 2)).toNat :=
  ⟨⟨by decide, by decide, by decide, by decide, by decide, by decide⟩, by decide⟩

end Sys2Proof.Tests
end

/-! ### Scope: a running core goes on or stops (00_scope.md R16) -/

namespace Sys2Proof.Machine

/-- What a step from `s` may answer: a next state whose run state and stop record are those of `s`, or the stop transition
of `s` (R16, R260). No fault and no refusal is among them. -/
inductive GoesOnOrStops (s : State) : Result → Prop
  | goesOn {t : State} (run : t.run = s.run) (stop : t.stop = s.stop) : GoesOnOrStops s (.next t)
  | stops (cause : StopCause) (opcode : Byte) : GoesOnOrStops s (.next (s.stopWith cause opcode))

/-- From a RUNNING state: the next state is RUNNING with the record as before, or STOPPED with a record. -/
theorem GoesOnOrStops.exists_next {s : State} {o : Result} (h : GoesOnOrStops s o) (hrun : s.run = .running) :
    ∃ t, o = .next t ∧
      ((t.run = .running ∧ t.stop = s.stop) ∨ (t.run = .stopped ∧ ∃ rec, t.stop = some rec)) := by
  cases h with
  | goesOn run stop => exact ⟨_, rfl, .inl ⟨run.trans hrun, stop⟩⟩
  | stops cause opcode => exact ⟨_, rfl, .inr ⟨s.stopWith_run .., _, s.stopWith_stop ..⟩⟩

/-! ### The shared operations of the meanings -/

/-- The check of a register operand adds only a stop (R266). -/
theorem withReg_goesOnOrStops {op b : Byte} {s : State} {go : Reg → Result} (h : ∀ r, GoesOnOrStops s (go r)) :
    GoesOnOrStops s (withReg op b s go) := by
  obtain ⟨r, -, hgo⟩ | ⟨-, hbad⟩ := withReg_cases op b s go
  · exact hgo ▸ h r
  · exact hbad ▸ .stops ..

/-- The ALU answers a result or one of its two stops, whatever operation its opcode selects (R160, R164, R168). -/
theorem alu_goesOnOrStops (op a b : Byte) (s : State) : GoesOnOrStops s (alu op a b s) := by
  refine withReg_goesOnOrStops fun ra => withReg_goesOnOrStops fun rb => ?_
  cases AluOp.ofSelector (opcodeI op) with
  | none => exact .stops ..
  | some sel =>
    cases hres : aluResult sel (s.readReg ra) (s.readReg rb) with
    | none => simpa only [hres] using .stops ..
    | some v => simpa only [hres] using .goesOn rfl rfl

/-! ### Every instruction, and the step -/

theorem exec_goesOnOrStops (i : Instr) (s : State) : GoesOnOrStops s (exec i s) := by
  cases i with
  | ldi rA imm => exact withReg_goesOnOrStops fun _ => .goesOn rfl rfl
  | prn rA => exact withReg_goesOnOrStops fun _ => .goesOn rfl rfl
  | hlt => exact .stops ..
  | add rA rB => exact alu_goesOnOrStops ..
  | sub rA rB => exact alu_goesOnOrStops ..
  | mul rA rB => exact alu_goesOnOrStops ..
  | div rA rB => exact alu_goesOnOrStops ..
  | push rA => exact withReg_goesOnOrStops fun _ => .goesOn rfl rfl
  | pop rA => exact withReg_goesOnOrStops fun _ => .goesOn rfl rfl
  | call rA => exact withReg_goesOnOrStops fun _ => .goesOn rfl rfl
  | ret => exact .goesOn rfl rfl

/-- A running core stops on an illegal opcode (R97, R263). -/
theorem step_of_fetch_none {s : State} (hrun : s.run = .running) (hf : s.fetch = none) :
    step s = .next (unknownOpcodeStop s) := by
  simp [step, hrun, hf]

/-- A running core runs the instruction it fetches (R97). -/
theorem step_of_fetch_some {s : State} {i : Instr} (hrun : s.run = .running) (hf : s.fetch = some i) :
    step s = exec i s := by
  simp [step, hrun, hf]

theorem step_goesOnOrStops {s : State} (hrun : s.run = .running) : GoesOnOrStops s (step s) := by
  cases hf : s.fetch with
  | none => exact step_of_fetch_none hrun hf ▸ .stops ..
  | some i => exact step_of_fetch_some hrun hf ▸ exec_goesOnOrStops i s

/-- Settles O12: every instruction keeps the run state and the stop record or makes the stop transition. -/
theorem stepGoesOnOrStopsWithACause : Obligations.StepGoesOnOrStopsWithACause := by
  refine fun s => ⟨fun hrun => (step_goesOnOrStops hrun).exists_next hrun, fun hstop t => ?_⟩
  simp [step_stopped hstop]

end Sys2Proof.Machine

/-! ### State: what an instruction does, and which of it reaches the output log (10_state.md R37, R43) -/

namespace Sys2Proof.Machine

/-- Everything an instruction can answer, with the condition of each answer: the inversion lemma `exec_effect` says that
there is nothing else. A new state is written with the operations of R14, so that the lemmas about them say what it
leaves unchanged. -/
inductive Effect (s : State) : Instr → Result → Prop
  | badRegister {i : Instr} (h : ∃ b ∈ i.regOperands, 8 ≤ b.toNat) :
      Effect s i (.next (s.stopWith .badRegister i.opcode))
  | ldi (r : Reg) (imm : Byte) : Effect s (.ldi r.byte imm) (.next ((s.writeReg r imm).advancePc 3))
  | prn (r : Reg) : Effect s (.prn r.byte) (.next ((s.emit (s.readReg r)).advancePc 2))
  | hlt : Effect s .hlt (.next (s.stopWith .halt Instr.hlt.opcode))
  | add (ra rb : Reg) : Effect s (.add ra.byte rb.byte)
      (.next ((s.writeReg ra (s.readReg ra + s.readReg rb)).advancePc 3))
  | sub (ra rb : Reg) : Effect s (.sub ra.byte rb.byte)
      (.next ((s.writeReg ra (s.readReg ra - s.readReg rb)).advancePc 3))
  | mul (ra rb : Reg) : Effect s (.mul ra.byte rb.byte)
      (.next ((s.writeReg ra (s.readReg ra * s.readReg rb)).advancePc 3))
  | div (ra rb : Reg) (h : s.readReg rb ≠ 0#8) : Effect s (.div ra.byte rb.byte)
      (.next ((s.writeReg ra (s.readReg ra / s.readReg rb)).advancePc 3))
  | divByZero (ra rb : Reg) (h : s.readReg rb = 0#8) : Effect s (.div ra.byte rb.byte)
      (.next (s.stopWith .divByZero (Instr.div ra.byte rb.byte).opcode))
  | push (r : Reg) : Effect s (.push r.byte)
      (.next ((s.decSp.memWrite (s.sp - 1) (s.decSp.readReg r)).advancePc 2))
  | pop (r : Reg) : Effect s (.pop r.byte) (.next ((s.writeReg r (s.memRead s.sp)).incSp.advancePc 2))
  | call (r : Reg) : Effect s (.call r.byte)
      (.next ((s.decSp.memWrite (s.sp - 1) (pcPlus s.pc 2)).setPc (s.decSp.readReg r)))
  | ret : Effect s .ret (.next (s.setPc (s.memRead s.sp)).incSp)

/-! ### The effect of every instruction -/

/-- The register check comes before everything else an instruction does (R97, R266, R267). -/
theorem exec_of_badRegister {i : Instr} (h : ∃ b ∈ i.regOperands, 8 ≤ b.toNat) (s : State) :
    exec i s = .next (s.stopWith .badRegister i.opcode) := by
  cases i with
  | ldi rA _ | prn rA | push rA | pop rA | call rA => exact withReg_bad (by simpa [Instr.regOperands] using h) ..
  | add rA rB | sub rA rB | mul rA rB | div rA rB => exact withRegs_bad (by simpa [Instr.regOperands] using h) ..
  | hlt | ret => simp [Instr.regOperands] at h

/-- The one register operand of a well-formed instruction. -/
theorem exists_reg_of_wellFormed {i : Instr} {a : Byte} (h : i.wellFormed = true) (hops : i.regOperands = [a]) :
    ∃ r : Reg, a = r.byte :=
  exists_byte_of_wellFormed h (by simp [hops])

/-- The two register operands of a well-formed instruction. -/
theorem exists_regs_of_wellFormed {i : Instr} {a b : Byte} (h : i.wellFormed = true)
    (hops : i.regOperands = [a, b]) : ∃ ra rb : Reg, a = ra.byte ∧ b = rb.byte := by
  obtain ⟨ra, ha⟩ := exists_byte_of_wellFormed (b := a) h (by simp [hops])
  obtain ⟨rb, hb⟩ := exists_byte_of_wellFormed (b := b) h (by simp [hops])
  exact ⟨ra, rb, ha, hb⟩

theorem Effect.of_exec_eq {s : State} {i : Instr} {o : Result} (heff : Effect s i o) (h : exec i s = o) :
    Effect s i (exec i s) :=
  h ▸ heff

/-- An instruction whose register operands pass their check has its own effect (R97). -/
theorem exec_effect_of_wellFormed {i : Instr} (h : i.wellFormed = true) (s : State) : Effect s i (exec i s) := by
  cases i with
  | ldi rA imm =>
    obtain ⟨r, rfl⟩ := exists_reg_of_wellFormed h rfl
    exact (Effect.ldi r imm).of_exec_eq (execLdi_byte s r imm)
  | prn rA =>
    obtain ⟨r, rfl⟩ := exists_reg_of_wellFormed h rfl
    exact (Effect.prn r).of_exec_eq (execPrn_byte s r)
  | hlt => exact .hlt
  | add rA rB =>
    obtain ⟨ra, rb, rfl, rfl⟩ := exists_regs_of_wellFormed h rfl
    exact (Effect.add ra rb).of_exec_eq (execAdd_byte s ra rb)
  | sub rA rB =>
    obtain ⟨ra, rb, rfl, rfl⟩ := exists_regs_of_wellFormed h rfl
    exact (Effect.sub ra rb).of_exec_eq (execSub_byte s ra rb)
  | mul rA rB =>
    obtain ⟨ra, rb, rfl, rfl⟩ := exists_regs_of_wellFormed h rfl
    exact (Effect.mul ra rb).of_exec_eq (execMul_byte s ra rb)
  | div rA rB =>
    obtain ⟨ra, rb, rfl, rfl⟩ := exists_regs_of_wellFormed h rfl
    by_cases hz : s.readReg rb = 0#8
    · exact (Effect.divByZero ra rb hz).of_exec_eq (execDiv_zero s ra rb hz)
    · exact (Effect.div ra rb hz).of_exec_eq (execDiv_byte s ra rb hz)
  | push rA =>
    obtain ⟨r, rfl⟩ := exists_reg_of_wellFormed h rfl
    exact (Effect.push r).of_exec_eq (execPush_byte s r)
  | pop rA =>
    obtain ⟨r, rfl⟩ := exists_reg_of_wellFormed h rfl
    exact (Effect.pop r).of_exec_eq (execPop_byte s r)
  | call rA =>
    obtain ⟨r, rfl⟩ := exists_reg_of_wellFormed h rfl
    exact (Effect.call r).of_exec_eq (execCall_byte s r)
  | ret => exact .ret

theorem exec_effect (i : Instr) (s : State) : Effect s i (exec i s) := by
  cases hwf : i.wellFormed with
  | true => exact exec_effect_of_wellFormed hwf s
  | false =>
    have hbad := wellFormed_eq_false.1 hwf
    exact (Effect.badRegister hbad).of_exec_eq (exec_of_badRegister hbad s)

/-- Everything a step that answers a next state did, with the effect of the instruction it ran (R16, R97). -/
theorem step_effect {s t : State} (h : step s = .next t) :
    (s.fetch = none ∧ t = unknownOpcodeStop s) ∨ ∃ i, s.fetch = some i ∧ Effect s i (.next t) := by
  obtain ⟨-, hstop | ⟨i, hi, hexec⟩⟩ := step_cases h
  · exact .inl hstop
  · exact .inr ⟨i, hi, hexec ▸ exec_effect i s⟩

/-! ### Fetching a PRN -/

theorem fetch_eq_decodeInstr (s : State) :
    s.fetch = decodeInstr (s.memRead s.pc) (s.memRead (s.pc + 1)) (s.memRead (s.pc + 2)) := by
  simp only [State.fetch, State.fetchByte, pcPlus_zero, pcPlus_one, pcPlus_two]

theorem decodeInstr_eq_prn_iff {op a b c : Byte} : decodeInstr op a b = some (.prn c) ↔ op = 0x47#8 ∧ a = c := by
  constructor
  · intro h
    obtain ⟨m, rfl, hm⟩ := decodeInstr_sound h
    cases m with
    | prn => cases hm; exact ⟨rfl, rfl⟩
    | _ => cases hm
  · rintro ⟨rfl, rfl⟩
    exact decodeInstr_opcode .prn a b

theorem fetch_eq_prn_iff {s : State} {c : Byte} :
    s.fetch = some (.prn c) ↔ s.memRead s.pc = 0x47#8 ∧ s.memRead (s.pc + 1) = c := by
  rw [fetch_eq_decodeInstr, decodeInstr_eq_prn_iff]

/-! ### The output log -/

/-- A launch that has a run is Load over construction (R301, R302). -/
theorem eq_load_of_launch {image : List Byte} {t : State} (h : launch image = .next t) :
    t = State.reset.load Config.loadBase image := by
  unfold launch at h
  split at h
  · cases h; rfl
  · cases h

theorem launch_out {image : List Byte} {t : State} (h : launch image = .next t) : t.out = [] := by
  obtain ⟨-, -, -, hout, -⟩ := State.load_frame State.reset Config.loadBase image
  rw [eq_load_of_launch h, hout, State.reset]

/-- The log after an instruction: PRN of a register emits, and no other effect holds an Emit (R8, R37). -/
theorem Effect.out_cases {s t : State} {i : Instr} (h : Effect s i (.next t)) :
    (∃ r : Reg, i = .prn r.byte ∧ t.out = s.out ++ [s.readReg r]) ∨ t.out = s.out := by
  cases h with
  | prn r => exact .inl ⟨r, rfl, rfl⟩
  | badRegister _ | ldi _ _ | hlt | add _ _ | sub _ _ | mul _ _ | div _ _ _ | divByZero _ _ _ | push _ | pop _
  | call _ | ret => exact .inr rfl

/-- The log after a step. -/
theorem step_out_cases {s t : State} (h : step s = .next t) :
    (∃ r : Reg, s.fetch = some (.prn r.byte) ∧ t.out = s.out ++ [s.readReg r]) ∨ t.out = s.out := by
  obtain ⟨-, rfl⟩ | ⟨i, hi, heff⟩ := step_effect h
  · exact .inr rfl
  · obtain ⟨r, rfl, hout⟩ | hout := heff.out_cases
    · exact .inl ⟨r, hi, hout⟩
    · exact .inr hout

/-- A step that fetches PRN of a register appends its value (R131). -/
theorem step_out_of_fetch_prn {s t : State} {r : Reg} (h : step s = .next t) (hf : s.fetch = some (.prn r.byte)) :
    t.out = s.out ++ [s.readReg r] := by
  have hexec : execPrn r.byte s = .next t := (step_of_fetch_some (step_cases h).1 hf).symm.trans h
  rw [execPrn_byte] at hexec
  cases hexec
  simp

/-! ### The statements -/

/-- Settles O37: of all effects PRN's alone holds an Emit, and a fetch gives PRN exactly for its opcode byte. -/
theorem outputGrowsOnlyByPrn : Obligations.OutputGrowsOnlyByPrn := by
  refine ⟨fun _ _ => launch_out, fun s t r h hop ha => ?_, fun s t h hnot => ?_⟩
  · exact step_out_of_fetch_prn h (fetch_eq_prn_iff.2 ⟨hop, ha⟩)
  · obtain ⟨r, hf, -⟩ | hout := step_out_cases h
    · obtain ⟨hop, ha⟩ := fetch_eq_prn_iff.1 hf
      have hreg : (s.memRead (s.pc + 1)).toNat < 8 := by rw [ha, Reg.byte_toNat]; exact r.index_lt
      exact absurd ⟨hop, hreg⟩ hnot
    · exact hout

theorem State.reset_readReg_of_ne {r : Reg} (h : r ≠ .r7) : State.reset.readReg r = 0x00#8 := by
  cases r with
  | r7 => exact absurd rfl h
  | r0 | r1 | r2 | r3 | r4 | r5 | r6 => rfl

@[simp] theorem State.reset_memRead (a : Byte) : State.reset.memRead a = 0x00#8 := rfl

/-- Settles O1: construction's values, register by register and cell by cell. -/
theorem resetLeavesTheSpecsValues : Obligations.ResetLeavesTheSpecsValues :=
  ⟨fun _ => State.reset_readReg_of_ne, rfl, rfl, State.reset_memRead, rfl, rfl, rfl⟩

end Sys2Proof.Machine

/-! ### Encoding: the opcode map, the length of an instruction, and the stop no opcode reaches (30_encoding.md R96 to R103) -/

namespace Sys2Proof

/-! ### The opcode map (R103) -/

/-- The eleven opcode bytes of R103 are the only ones a mnemonic has. -/
theorem Mnemonic.opcode_mem_map (m : Mnemonic) :
    m.opcode ∈ [0x01#8, 0x11#8, 0x45#8, 0x46#8, 0x47#8, 0x50#8, 0x82#8, 0xA0#8, 0xA1#8, 0xA2#8, 0xA3#8] := by
  cases m <;> decide

/-- Settles O7: a byte decodes exactly when it is a mnemonic's opcode, and the opcodes are the eleven bytes. -/
theorem opcodeMapOverAllByteValues : Obligations.OpcodeMapOverAllByteValues := by
  refine ⟨fun a b => ?_, fun op a b hop => ?_, fun r => opcodeTable_row⟩
  · exact ⟨decodeInstr_opcode .hlt a b, decodeInstr_opcode .ret a b, decodeInstr_opcode .push a b,
      decodeInstr_opcode .pop a b, decodeInstr_opcode .prn a b, decodeInstr_opcode .call a b,
      decodeInstr_opcode .ldi a b, decodeInstr_opcode .add a b, decodeInstr_opcode .sub a b,
      decodeInstr_opcode .mul a b, decodeInstr_opcode .div a b⟩
  · refine decodeInstr_eq_none.2 fun m hm => hop ?_
    exact hm ▸ m.opcode_mem_map

/-! ### The length of an instruction (R96) -/

/-- The length facts of Laws/PerInstr.lean, for every instruction. -/
theorem encodeLength_statement (i : Instr) : Laws.EncodeLength.Statement i := by
  cases i with
  | ldi rA imm => exact Laws.EncodeLength.ldi rA imm
  | prn rA => exact Laws.EncodeLength.prn rA
  | hlt => exact Laws.EncodeLength.hlt
  | add rA rB => exact Laws.EncodeLength.add rA rB
  | sub rA rB => exact Laws.EncodeLength.sub rA rB
  | mul rA rB => exact Laws.EncodeLength.mul rA rB
  | div rA rB => exact Laws.EncodeLength.div rA rB
  | push rA => exact Laws.EncodeLength.push rA
  | pop rA => exact Laws.EncodeLength.pop rA
  | call rA => exact Laws.EncodeLength.call rA
  | ret => exact Laws.EncodeLength.ret

theorem encode_length (i : Instr) : (encode i).length = instrLength i.opcode :=
  (encodeLength_statement i).1

/-- Field `N` of a row's opcode counts the operand bytes of the row's format (R90, R91). -/
theorem opcodeN_of_mem_opcodeTable {r : OpcodeRow} (h : r ∈ opcodeTable) :
    opcodeN r.mnemonic.opcode = r.format.operandBytes := by
  revert r
  decide

theorem instrLength_of_decodeRow {op : Byte} {r : OpcodeRow} (h : decodeRow op = some r) :
    instrLength op = r.format.operandBytes + 1 := by
  obtain ⟨hmem, rfl⟩ := decodeRow_sound h
  rw [instrLength, opcodeN_of_mem_opcodeTable hmem]

/-- Settles O8: the byte is the opcode of the row it selects and of the instruction it decodes to. -/
theorem lengthIsTheOpcodesNPlusOne : Obligations.LengthIsTheOpcodesNPlusOne := by
  intro op a b row i hrow hi
  refine ⟨rfl, instrLength_of_decodeRow hrow, ?_⟩
  rw [encode_length, decodeInstr_opcode_eq hi]

end Sys2Proof

namespace Sys2Proof.Machine

/-! ### The stop no opcode reaches (R100) -/

/-- The stop record after an instruction: the one before, or that of a stop for one of three causes. -/
theorem Effect.stop_cases {s t : State} {i : Instr} (h : Effect s i (.next t)) :
    t.stop = s.stop ∨ ∃ c ∈ [StopCause.halt, .divByZero, .badRegister], t = s.stopWith c i.opcode := by
  cases h with
  | badRegister _ => exact .inr ⟨.badRegister, by decide, rfl⟩
  | hlt => exact .inr ⟨.halt, by decide, rfl⟩
  | divByZero _ _ _ => exact .inr ⟨.divByZero, by decide, rfl⟩
  | ldi _ _ | prn _ | add _ _ | sub _ _ | mul _ _ | div _ _ _ | push _ | pop _ | call _ | ret => exact .inl rfl

/-- The stop record after a step: the one before, or that of a stop for a cause that the decoder can reach. -/
theorem step_stop_cases {s t : State} (h : step s = .next t) :
    t.stop = s.stop ∨ ∃ c ≠ StopCause.unsupportedAlu, ∃ op, t = s.stopWith c op := by
  obtain ⟨-, rfl⟩ | ⟨i, -, heff⟩ := step_effect h
  · exact .inr ⟨.unknownOpcode, by decide, s.fetchByte 0, rfl⟩
  · obtain hsame | ⟨c, hc, rfl⟩ := heff.stop_cases
    · exact .inl hsame
    · refine .inr ⟨c, ?_, i.opcode, rfl⟩
      rintro rfl
      exact absurd hc (by decide)

/-- Settles O28: a step keeps the stop record or stops for a cause other than UNSUPPORTED_ALU. -/
theorem unsupportedAluNeverArises : Obligations.UnsupportedAluNeverArises := by
  intro s t h hs rec hrec
  obtain hsame | ⟨c, hc, op, rfl⟩ := step_stop_cases h
  · exact hs rec (hsame ▸ hrec)
  · rw [State.stopWith_stop] at hrec
    cases hrec
    exact hc

end Sys2Proof.Machine

/-! ### The ALU: what an operation writes and what it leaves unchanged (41_alu.md R160 to R167) -/

namespace Sys2Proof.Machine

/-- Writing the result to the first register and advancing past three bytes, all an ALU operation that does not stop does
(R160), keeps the frame. -/
theorem aluFrame_writeReg_advancePc (ra : Reg) (s : State) (v : Byte) :
    AluFrame ra s ((s.writeReg ra v).advancePc 3) where
  pc := pcPlus_three s.pc
  others :=
    { regs := fun r hr => by
        have hne : r ≠ ra := by simpa using hr
        rw [State.advancePc_readReg, State.readReg_writeReg_of_ne s v hne]
      out := rfl
      run := rfl
      stop := rfl }
  memory := fun _ _ => rfl

/-- The result and the frame of an ALU operation that answers `v`, whose unsigned value is `n`. -/
theorem exists_next_aluFrame {s : State} {ra : Reg} {v : Byte} {n : Nat} {o : Result}
    (ho : o = .next ((s.writeReg ra v).advancePc 3)) (hv : v.toNat = n) :
    ∃ t, o = .next t ∧ (t.readReg ra).toNat = n ∧ AluFrame ra s t := by
  refine ⟨_, ho, ?_, aluFrame_writeReg_advancePc ra s v⟩
  rw [State.advancePc_readReg, State.readReg_writeReg_same, hv]

/-- Settles O23: the three results are those of `+`, `-` and `*` on 8-bit words, whose unsigned values wrap. -/
theorem addSubMulWrapModulo256 : Obligations.AddSubMulWrapModulo256 := by
  refine fun ra rb s => ⟨?add, ?sub, ?mul⟩
  case add => exact exists_next_aluFrame (execAdd_byte s ra rb) (BitVec.toNat_add ..)
  case sub =>
    refine exists_next_aluFrame (execSub_byte s ra rb) ?_
    rw [BitVec.toNat_sub, Nat.add_comm]
  case mul => exact exists_next_aluFrame (execMul_byte s ra rb) (BitVec.toNat_mul ..)

/-- Settles O24: word division is the floor quotient, and a zero divisor makes the stop transition, which writes no
register. -/
theorem divAtEveryOperandClass : Obligations.DivAtEveryOperandClass := by
  refine fun ra rb s => ⟨fun hdiv => ?quotient, fun hzero => ?stop⟩
  case quotient => exact exists_next_aluFrame (execDiv_byte s ra rb hdiv) BitVec.toNat_udiv
  case stop =>
    exact ⟨_, _, execDiv_zero s ra rb hzero, State.stopWith_run .., State.stopWith_stop .., rfl,
      State.stopWith_readReg ..⟩

end Sys2Proof.Machine

/-! ### Call and return: RET (43_call_return.md R231) -/

namespace Sys2Proof.Machine

theorem exec_ret (s : State) : exec .ret s = .next (s.setPc (s.memRead s.sp)).incSp := rfl

/-- Setting the pc and incrementing SP, all RET does (R231), leaves everything else but memory, spoken of apart, as it was. -/
theorem sameBut_setPc_incSp (s : State) (a : Byte) : SameBut [.r7] s (s.setPc a).incSp where
  regs := fun r hr => by
    have hne : r ≠ .r7 := by simpa using hr
    rw [State.incSp_readReg_of_ne _ hne, State.setPc_readReg]
  out := rfl
  run := rfl
  stop := rfl

/-- Settles O32: RET reads the cell at SP before it increments SP, and stores nothing. -/
theorem retPopsThePc : Obligations.RetPopsThePc := by
  refine ⟨rfl, fun s => ⟨_, exec_ret s, ?pc, ?sp, sameBut_setPc_incSp s _, ?memory⟩⟩
  case pc => rw [State.incSp_pc, State.setPc_pc]
  case sp => rw [State.incSp_sp, State.setPc_readReg]
  case memory => exact fun a _ => by rw [State.incSp_memRead, State.setPc_memRead]

end Sys2Proof.Machine

/-! ### Exceptions: the unknown opcode and the zero divisor (60_exceptions.md R260 to R264) -/

namespace Sys2Proof.Machine

/-- HALT is the only cause with status 0 (R262). -/
theorem StopCause.status_ne_zero {c : StopCause} (h : c ≠ .halt) : c.status ≠ 0 := by
  cases c with
  | halt => exact absurd rfl h
  | unknownOpcode | divByZero | unsupportedAlu | badRegister => decide

/-- Every mnemonic has a row in the opcode table (R91, R103). -/
theorem opcode_mem_opcodeTable_values (m : Mnemonic) : m.opcode ∈ opcodeTable.map (·.value) := by
  obtain ⟨r, hr, rfl⟩ := decodeRow_opcode m
  obtain ⟨hmem, -⟩ := decodeRow_sound hr
  exact List.mem_map.2 ⟨r, hmem, (opcodeTable_row hmem).2⟩

/-- A byte at the pc that is no row's value is no instruction, whatever follows it (R95, R99). -/
theorem fetch_eq_none_of_notMem_opcodeTable {s : State} (h : s.memRead s.pc ∉ opcodeTable.map (·.value)) :
    s.fetch = none := by
  rw [fetch_eq_decodeInstr]
  exact decodeInstr_eq_none.2 fun m hm => h (hm ▸ opcode_mem_opcodeTable_values m)

/-- The UNKNOWN_OPCODE stop names the byte at the pc (R263). -/
theorem unknownOpcodeStop_eq (s : State) : unknownOpcodeStop s = s.stopWith .unknownOpcode (s.memRead s.pc) := by
  rw [unknownOpcodeStop, fetchByte_zero]

/-- Settles O13: the eleven bytes are the values of the opcode table's rows, so nothing is fetched and the step is the stop
transition. -/
theorem unknownOpcodeStops : Obligations.UnknownOpcodeStops := by
  intro s hrun hop
  have hstep : step s = .next (s.stopWith .unknownOpcode (s.memRead s.pc)) := by
    rw [step_of_fetch_none hrun (fetch_eq_none_of_notMem_opcodeTable hop), unknownOpcodeStop_eq]
  exact ⟨_, _, hstep, State.stopWith_run .., State.stopWith_stop .., rfl, rfl, rfl,
    StopCause.status_ne_zero (c := .unknownOpcode) (by decide), State.stopWith_regs .., State.stopWith_mem ..,
    State.stopWith_pc .., State.stopWith_out ..⟩

/-- Settles O25: with both operands registers and the divisor 0, DIV is the stop transition, which keeps everything but the
run state and the stop record. -/
theorem divByZeroIsFatal : Obligations.DivByZeroIsFatal := by
  intro ra rb s hzero
  exact ⟨_, _, execDiv_zero s ra rb hzero, State.stopWith_run .., State.stopWith_stop .., rfl, rfl, rfl,
    StopCause.status_ne_zero (c := .divByZero) (by decide), fun _ => State.stopWith_readReg .., State.stopWith_pc ..,
    State.stopWith_out .., fun _ _ => State.stopWith_memRead ..⟩

end Sys2Proof.Machine

/-! ### Launch: the image over construction's zeros (70_reset_and_hazards.md R301 to R304) -/

namespace Sys2Proof.Machine

/-- The distance of every cell but `a` from `a` is one more than its distance from the cell after `a`. -/
theorem toNat_sub_eq_succ {a b : Byte} (h : b ≠ a) : (b - a).toNat = (b - (a + 1)).toNat + 1 := by
  bv_omega

/-- Load puts byte `i` of the image in cell `a + i` modulo 256. An image of at most 256 bytes reaches no cell twice, and
the cells past it read as before (R301). -/
theorem State.load_memRead {s : State} (hs : Memory.wf s.mem = true) (a : Byte) {image : List Byte}
    (hlen : image.length ≤ 256) (b : Byte) :
    (s.load a image).memRead b = image.getD (b - a).toNat (s.memRead b) := by
  induction image generalizing s a with
  | nil => rfl
  | cons v rest ih =>
    have hrest : rest.length < 256 := by simpa using hlen
    rw [State.load, ih (State.memWrite_wf hs a v) (a + 1) (by omega)]
    by_cases hb : b = a
    · subst hb
      have hpast : rest.length ≤ (b - (b + 1)).toNat := by bv_omega
      rw [List.getD_eq_default _ _ hpast, State.memRead_memWrite_same hs, BitVec.sub_self]
      rfl
    · rw [State.memRead_memWrite_of_ne s v hb, toNat_sub_eq_succ hb, List.getD_cons_succ]

/-- A RUNNING core with no stop record meets the invariant as soon as its memory is canonical. -/
theorem inv_of_running {s : State} (hmem : Memory.wf s.mem = true) (hrun : s.run = .running) (hstop : s.stop = none) :
    Inv s where
  memWf := hmem
  stopIffStopped := by simp [hrun, hstop]
  stopExplained := by simp [hstop]

/-- An image that fits in memory has a run (R301, R302). -/
theorem launch_of_length_le {image : List Byte} (h : image.length ≤ 256) :
    launch image = .next (State.reset.load Config.loadBase image) :=
  if_pos h

/-- Settles O3: Load reads back the image over construction's zeros, and changes nothing but memory. -/
theorem launchLoadsTheImageOverReset : Obligations.LaunchLoadsTheImageOverReset := by
  intro image hlen
  obtain ⟨hregs, hpc, hrun, hout, hstop⟩ := State.load_frame State.reset Config.loadBase image
  have hread (r : Reg) : (State.reset.load Config.loadBase image).readReg r = State.reset.readReg r :=
    congrArg (·.read r) hregs
  refine ⟨_, launch_of_length_le hlen, fun a => ?cell, fun r hr => ?register, hread .r7, hpc, hrun, hout, hstop, ?inv⟩
  case cell =>
    rw [State.load_memRead State.reset_memWf _ hlen, State.reset_memRead, Config.loadBase, BitVec.sub_zero]
  case register => rw [hread, State.reset_readReg_of_ne hr]
  case inv => exact inv_of_running (State.load_wf State.reset_memWf ..) hrun hstop

end Sys2Proof.Machine

/-! ### Encoding: decode and encode are inverse, and the bytes an instruction does not use (30_encoding.md R90 to R103, D17) -/

namespace Sys2Proof

/-- The operands of an instruction are as many of the two bytes after the opcode as field `N` says (R90, R94, R96). -/
theorem Mnemonic.operands_instr (m : Mnemonic) (a b : Byte) :
    (m.instr a b).operands = [a, b].take (opcodeN m.opcode) := by
  cases m <;> rfl

theorem encode_instr_of_decodeRow {op : Byte} {r : OpcodeRow} (h : decodeRow op = some r) (a b : Byte) :
    encode (r.mnemonic.instr a b) = op :: [a, b].take r.format.operandBytes := by
  obtain ⟨hmem, rfl⟩ := decodeRow_sound h
  rw [encode, Instr.opcode, Mnemonic.instr_mnemonic, Mnemonic.operands_instr, opcodeN_of_mem_opcodeTable hmem]

/-! ### Decoding a list, one equation a format (R90) -/

section
variable {op : Byte} {r : OpcodeRow} (hrow : decodeRow op = some r)
include hrow

theorem decode_of_f0 (hf : r.format = .f0) (rest : List Byte) :
    decode (op :: rest) = .ok (r.mnemonic.instr 0 0, rest) := by
  simp only [decode, hrow, hf]

theorem decode_of_f1 (hf : r.format = .f1) (a : Byte) (rest : List Byte) :
    decode (op :: a :: rest) = .ok (r.mnemonic.instr a 0, rest) := by
  simp only [decode, hrow, hf]

theorem decode_of_f2 (hf : r.format = .f2) (a b : Byte) (rest : List Byte) :
    decode (op :: a :: b :: rest) = .ok (r.mnemonic.instr a b, rest) := by
  simp only [decode, hrow, hf]

end

/-- Everything the list decoder can answer: the instruction of the row the first byte selects, with the operand bytes of
the row's format taken from what follows. -/
theorem decode_sound {bytes rest : List Byte} {i : Instr} (h : decode bytes = .ok (i, rest)) :
    ∃ op r a b, decodeRow op = some r ∧ i = r.mnemonic.instr a b ∧
      bytes = op :: ([a, b].take r.format.operandBytes ++ rest) := by
  match bytes with
  | [] => cases h
  | op :: tail =>
    cases hrow : decodeRow op with
    | none => simp [decode, hrow] at h
    | some r =>
      cases hf : r.format with
      | f0 =>
        rw [decode_of_f0 hrow hf] at h
        cases h
        exact ⟨op, r, 0, 0, hrow, rfl, by rw [hf]; rfl⟩
      | f1 =>
        match tail with
        | [] => simp [decode, hrow, hf] at h
        | a :: _ =>
          rw [decode_of_f1 hrow hf] at h
          cases h
          exact ⟨op, r, a, 0, hrow, rfl, by rw [hf]; rfl⟩
      | f2 =>
        match tail with
        | [] | [_] => simp [decode, hrow, hf] at h
        | a :: b :: _ =>
          rw [decode_of_f2 hrow hf] at h
          cases h
          exact ⟨op, r, a, b, hrow, rfl, by rw [hf]; rfl⟩

theorem decode_encode_append (i : Instr) (rest : List Byte) : decode (encode i ++ rest) = .ok (i, rest) := by
  cases i with
  | ldi rA imm => exact decode_of_f2 decodeRow_ldi rfl rA imm rest
  | prn rA => exact decode_of_f1 decodeRow_prn rfl rA rest
  | hlt => exact decode_of_f0 decodeRow_hlt rfl rest
  | add rA rB => exact decode_of_f2 decodeRow_add rfl rA rB rest
  | sub rA rB => exact decode_of_f2 decodeRow_sub rfl rA rB rest
  | mul rA rB => exact decode_of_f2 decodeRow_mul rfl rA rB rest
  | div rA rB => exact decode_of_f2 decodeRow_div rfl rA rB rest
  | push rA => exact decode_of_f1 decodeRow_push rfl rA rest
  | pop rA => exact decode_of_f1 decodeRow_pop rfl rA rest
  | call rA => exact decode_of_f1 decodeRow_call rfl rA rest
  | ret => exact decode_of_f0 decodeRow_ret rfl rest

theorem eq_encode_append_of_decode {bytes rest : List Byte} {i : Instr} (h : decode bytes = .ok (i, rest)) :
    bytes = encode i ++ rest := by
  obtain ⟨op, r, a, b, hrow, rfl, rfl⟩ := decode_sound h
  rw [encode_instr_of_decodeRow hrow, List.cons_append]

/-- Settles O5: forwards, each opcode's row has the format of its instruction; backwards, the decoder takes exactly the
operand bytes that the encoding of the row's instruction has. -/
theorem decodeAndEncodeAgree : Obligations.DecodeAndEncodeAgree :=
  ⟨decode_encode_append, fun _ _ _ => eq_encode_append_of_decode⟩

/-! ### The table's numbering of bits -/

theorem two_pow_eight_mul_succ (n : Nat) : 2 ^ (8 * (n + 1)) = 256 * 2 ^ (8 * n) := by
  rw [Nat.mul_succ, pow_add, mul_comm]
  norm_num

theorem tableByte_tableWord_zero (v : Byte) (bytes : List Byte) :
    tableByte (8 * (bytes.length + 1)) (tableWord (v :: bytes)) 0 = v := by
  apply BitVec.eq_of_toNat_eq
  have hdvd : 256 ∣ 2 ^ (8 * (bytes.length + 1)) := ⟨_, two_pow_eight_mul_succ _⟩
  have hv : v.toNat < 256 := v.isLt
  simp only [tableByte, tableWord, pow_zero, Nat.div_one, BitVec.toNat_ofNat, Nat.mod_mod_of_dvd _ hdvd]
  omega

theorem tableByte_tableWord_succ (v : Byte) (bytes : List Byte) (k : Nat) :
    tableByte (8 * (bytes.length + 1)) (tableWord (v :: bytes)) (k + 1) =
      tableByte (8 * bytes.length) (tableWord bytes) k := by
  have hdiv : (v.toNat + 256 * tableWord bytes) / 256 = tableWord bytes := by
    have hv : v.toNat < 256 := v.isLt
    omega
  rw [tableByte, tableByte, tableWord, two_pow_eight_mul_succ, pow_succ', ← Nat.div_div_eq_div_mul,
    Nat.mod_mul_right_div_self, hdiv]

/-- The bytes of a table word are the bytes it was made of, and zeros after them. -/
theorem tableByte_tableWord (bytes : List Byte) (k : Nat) :
    tableByte (8 * bytes.length) (tableWord bytes) k = bytes.getD k 0 := by
  induction bytes generalizing k with
  | nil => simp [tableByte, tableWord]
  | cons v bytes ih =>
    cases k with
    | zero => exact tableByte_tableWord_zero v bytes
    | succ k => exact (tableByte_tableWord_succ v bytes k).trans (ih k)

/-- An instruction is decoded from its encoding with zeros after it. -/
theorem decodeInstr_getD_encode (i : Instr) :
    decodeInstr ((encode i).getD 0 0) ((encode i).getD 1 0) ((encode i).getD 2 0) = some i := by
  cases i with
  | ldi rA imm => exact decodeInstr_opcode .ldi rA imm
  | prn rA => exact decodeInstr_opcode .prn rA 0
  | hlt => exact decodeInstr_opcode .hlt 0 0
  | add rA rB => exact decodeInstr_opcode .add rA rB
  | sub rA rB => exact decodeInstr_opcode .sub rA rB
  | mul rA rB => exact decodeInstr_opcode .mul rA rB
  | div rA rB => exact decodeInstr_opcode .div rA rB
  | push rA => exact decodeInstr_opcode .push rA 0
  | pop rA => exact decodeInstr_opcode .pop rA 0
  | call rA => exact decodeInstr_opcode .call rA 0
  | ret => exact decodeInstr_opcode .ret 0 0

/-- Settles O6: the word's bytes are those of the encoding. -/
theorem tableWordOfEveryEncodingDecodes : Obligations.TableWordOfEveryEncodingDecodes := by
  intro i
  rw [decodeTableWord, tableByte_tableWord, tableByte_tableWord, tableByte_tableWord]
  exact decodeInstr_getD_encode i

/-! ### Unused bytes (D17) -/

/-- The instruction depends on no byte past the operands that field `N` counts. -/
theorem Mnemonic.instr_congr {m : Mnemonic} {a b a' b' : Byte} (ha : 1 ≤ opcodeN m.opcode → a = a')
    (hb : 2 ≤ opcodeN m.opcode → b = b') : m.instr a b = m.instr a' b' := by
  cases m with
  | ldi | add | sub | mul | div => rw [ha (by decide), hb (by decide)]
  | prn | push | pop | call => rw [ha (by decide)]; rfl
  | hlt | ret => rfl

theorem decodeInstr_congr {op a b a' b' : Byte} (ha : 1 ≤ opcodeN op → a = a') (hb : 2 ≤ opcodeN op → b = b') :
    decodeInstr op a b = decodeInstr op a' b' := by
  by_cases hop : ∃ m : Mnemonic, op = m.opcode
  · obtain ⟨m, rfl⟩ := hop
    rw [decodeInstr_opcode, decodeInstr_opcode, Mnemonic.instr_congr ha hb]
  · have hnone : ∀ m : Mnemonic, op ≠ m.opcode := not_exists.1 hop
    rw [decodeInstr_eq_none.2 hnone, decodeInstr_eq_none.2 hnone]

/-- Settles O10: a byte that `N` does not count is no operand. -/
theorem unusedOperandBytesReachNothing : Obligations.UnusedOperandBytesReachNothing := by
  refine fun op a b a' b' => ⟨fun hN => ?_, fun hN => ?_⟩
  · exact decodeInstr_congr (fun _ => rfl) (fun h => by omega)
  · exact decodeInstr_congr (fun h => by omega) (fun h => by omega)

/-! ### The bits of an opcode (C1) -/

theorem opcodeA_instr (m : Mnemonic) (a b : Byte) :
    opcodeA m.opcode = true ↔ ∃ x y, m.instr a b = .add x y ∨ m.instr a b = .sub x y ∨ m.instr a b = .mul x y ∨
      m.instr a b = .div x y := by
  cases m with
  | add | sub | mul | div => exact iff_of_true rfl ⟨a, b, by simp [Mnemonic.instr]⟩
  | ldi | prn | hlt | push | pop | call | ret => exact iff_of_false (by decide) (by simp [Mnemonic.instr])

theorem opcodeP_instr (m : Mnemonic) (a b : Byte) :
    opcodeP m.opcode = true ↔ (∃ x, m.instr a b = .call x) ∨ m.instr a b = .ret := by
  cases m with
  | call => exact iff_of_true rfl (.inl ⟨a, rfl⟩)
  | ret => exact iff_of_true rfl (.inr rfl)
  | ldi | prn | hlt | add | sub | mul | div | push | pop => exact iff_of_false (by decide) (by simp [Mnemonic.instr])

/-- Settles O9: a legal opcode is a mnemonic's, and the two bits are read off the eleven. -/
theorem opcodeBitsMarkAluAndPcSetting : Obligations.OpcodeBitsMarkAluAndPcSetting := by
  intro op a b i h
  obtain ⟨m, rfl, rfl⟩ := decodeInstr_sound h
  exact ⟨opcodeA_instr m a b, opcodeP_instr m a b⟩

/-! ### The two decoders agree -/

/-- On three bytes or more the list decoder answers what the core's decoder does with the first three. -/
theorem decodeInstr_of_decode {op a b : Byte} {tail rest : List Byte} {i : Instr}
    (h : decode (op :: a :: b :: tail) = .ok (i, rest)) : decodeInstr op a b = some i := by
  obtain ⟨op', r, x, y, hrow, rfl, hbytes⟩ := decode_sound h
  obtain ⟨rfl, htail⟩ := List.cons_eq_cons.1 hbytes
  have hN : opcodeN op = r.format.operandBytes := Nat.succ.inj (instrLength_of_decodeRow hrow)
  have hxy : decodeInstr op x y = some (r.mnemonic.instr x y) := by rw [decodeInstr, hrow, Option.map_some]
  rw [← hxy]
  cases hf : r.format with
  | f0 =>
    rw [hf, Format.operandBytes] at hN
    exact decodeInstr_congr (fun h => by omega) (fun h => by omega)
  | f1 =>
    rw [hf, Format.operandBytes] at hN htail
    obtain ⟨rfl, -⟩ := List.cons_eq_cons.1 htail
    exact decodeInstr_congr (fun _ => rfl) (fun h => by omega)
  | f2 =>
    rw [hf] at htail
    obtain ⟨rfl, htail'⟩ := List.cons_eq_cons.1 htail
    obtain ⟨rfl, -⟩ := List.cons_eq_cons.1 htail'
    rfl

end Sys2Proof

/-! ### The step: when it stops, what a stop leaves, and the invariant (60_exceptions.md R260 to R267, 10_state.md R38) -/

namespace Sys2Proof.Machine

/-! ### Which cause is due (R267) -/

theorem dueStop_of_fetch_none {s : State} (hf : s.fetch = none) : dueStop s = some .unknownOpcode := by
  simp only [dueStop, hf]

/-- A bad register operand comes first of an instruction's causes. -/
theorem dueStop_of_badRegister {s : State} {i : Instr} (hf : s.fetch = some i) (h : ∃ b ∈ i.regOperands, 8 ≤ b.toNat) :
    dueStop s = some .badRegister := by
  simp only [dueStop, hf, wellFormed_eq_false.2 h, if_true]

/-- Operand bytes that name registers pass the check. -/
theorem wellFormed_of_regOperands {i : Instr} (h : ∀ b ∈ i.regOperands, ∃ r : Reg, b = r.byte) : i.wellFormed = true := by
  refine List.all_eq_true.2 fun b hb => decide_eq_true ?_
  obtain ⟨r, rfl⟩ := h b hb
  rw [Reg.byte_toNat]
  exact r.index_lt

theorem wellFormed_of_one_reg {i : Instr} {r : Reg} (h : i.regOperands = [r.byte]) : i.wellFormed = true :=
  wellFormed_of_regOperands (by simp [h])

theorem wellFormed_of_two_regs {i : Instr} {ra rb : Reg} (h : i.regOperands = [ra.byte, rb.byte]) :
    i.wellFormed = true :=
  wellFormed_of_regOperands (by simp [h])

theorem dueStop_of_hlt {s : State} (hf : s.fetch = some .hlt) : dueStop s = some .halt := by
  simp [dueStop, hf, Instr.wellFormed, Instr.regOperands]

theorem dueStop_of_div {s : State} {ra rb : Reg} (hf : s.fetch = some (.div ra.byte rb.byte)) :
    dueStop s = if s.readReg rb = 0#8 then some .divByZero else none := by
  simp [dueStop, hf, wellFormed_of_two_regs (i := .div ra.byte rb.byte) rfl, holdsZero]

theorem dueStop_eq_none {s : State} {i : Instr} (hf : s.fetch = some i) (hwf : i.wellFormed = true) (hhlt : i ≠ .hlt)
    (hdiv : ∀ a b, i ≠ .div a b) : dueStop s = none := by
  cases i with
  | hlt => exact absurd rfl hhlt
  | div a b => exact absurd rfl (hdiv a b)
  | ldi | prn | add | sub | mul | push | pop | call | ret => simp [dueStop, hf, hwf]

/-- The stop transition changes nothing that decides which cause is due. -/
@[simp] theorem dueStop_stopWith (s : State) (c : StopCause) (op : Byte) : dueStop (s.stopWith c op) = dueStop s := rfl

/-! ### What a step does about the due cause -/

/-- The opcode byte of the instruction fetched is the byte at the pc (log 25). -/
theorem opcode_eq_memRead_pc {s : State} {i : Instr} (hf : s.fetch = some i) : i.opcode = s.memRead s.pc :=
  (fetch_opcode hf).trans (fetchByte_zero s)

/-- The instruction at the pc makes the stop transition for the due cause, or none is due and it keeps the run state and
the stop record. -/
theorem Effect.dueStop_cases {s t : State} {i : Instr} (h : Effect s i (.next t)) (hf : s.fetch = some i) :
    (∃ c, dueStop s = some c ∧ t = s.stopWith c i.opcode) ∨ (dueStop s = none ∧ t.run = s.run ∧ t.stop = s.stop) := by
  cases h with
  | badRegister hbad => exact .inl ⟨.badRegister, dueStop_of_badRegister hf hbad, rfl⟩
  | hlt => exact .inl ⟨.halt, dueStop_of_hlt hf, rfl⟩
  | divByZero ra rb hz => exact .inl ⟨.divByZero, by rw [dueStop_of_div hf, if_pos hz], rfl⟩
  | div ra rb hz => exact .inr ⟨by rw [dueStop_of_div hf, if_neg hz], rfl, rfl⟩
  | ldi | prn | push | pop | call =>
    exact .inr ⟨dueStop_eq_none hf (wellFormed_of_one_reg rfl) nofun nofun, rfl, rfl⟩
  | add | sub | mul => exact .inr ⟨dueStop_eq_none hf (wellFormed_of_two_regs rfl) nofun nofun, rfl, rfl⟩
  | ret => exact .inr ⟨dueStop_eq_none hf rfl nofun nofun, rfl, rfl⟩

/-- A step makes the stop transition for the due cause and the byte at the pc, or none is due and it keeps the run state
and the stop record. -/
theorem step_dueStop_cases {s t : State} (h : step s = .next t) :
    (∃ c, dueStop s = some c ∧ t = s.stopWith c (s.memRead s.pc)) ∨
      (dueStop s = none ∧ t.run = s.run ∧ t.stop = s.stop) := by
  obtain ⟨hf, rfl⟩ | ⟨i, hf, heff⟩ := step_effect h
  · exact .inl ⟨.unknownOpcode, dueStop_of_fetch_none hf, unknownOpcodeStop_eq s⟩
  · exact opcode_eq_memRead_pc hf ▸ heff.dueStop_cases hf

theorem exists_next_of_running {s : State} (hrun : s.run = .running) : ∃ t, step s = .next t := by
  obtain ⟨t, ht, -⟩ := (step_goesOnOrStops hrun).exists_next hrun
  exact ⟨t, ht⟩

/-- The stop a STOPPED next state comes from. -/
theorem eq_stopWith_of_step_stopped {s t : State} (h : step s = .next t) (hstop : t.run = .stopped) :
    ∃ c, dueStop s = some c ∧ t = s.stopWith c (s.memRead s.pc) := by
  obtain hdue | ⟨-, hrun, -⟩ := step_dueStop_cases h
  · exact hdue
  · obtain ⟨hrunning, -⟩ := step_cases h
    rw [hrun, hrunning] at hstop
    cases hstop

/-- HALT alone has status 0, and every other cause 1 (R262). -/
theorem StopCause.status_eq (c : StopCause) : c.status = if c = .halt then 0 else 1 := by
  cases c <;> rfl

/-- Settles O15: the step does what `step_dueStop_cases` says, and exactly one of its cases agrees with the due cause. -/
theorem stepStopsExactlyForTheDueCause : Obligations.StepStopsExactlyForTheDueCause := by
  intro s hrun
  obtain ⟨t, ht⟩ := exists_next_of_running hrun
  obtain ⟨c, hc, rfl⟩ | ⟨hnone, htrun, -⟩ := step_dueStop_cases ht
  · refine ⟨fun c' hc' => ?_, fun hnone => by simp [hnone] at hc⟩
    obtain rfl : c = c' := Option.some.inj (hc.symm.trans hc')
    exact ⟨_, ht, State.stopWith_run .., by rw [State.stopWith_stop, StopCause.status_eq]⟩
  · exact ⟨fun c hc => by simp [hnone] at hc, fun _ => ⟨t, ht, htrun.trans hrun⟩⟩

/-- Settles O16: a step that stops is the stop transition. -/
theorem stopsArePrecise : Obligations.StopsArePrecise := by
  intro s t h hstop
  obtain ⟨c, -, rfl⟩ := eq_stopWith_of_step_stopped h hstop
  exact ⟨State.stopWith_regs .., State.stopWith_mem .., State.stopWith_pc .., State.stopWith_out ..⟩

/-- Settles O14: the check of the register operands comes before every effect. -/
theorem badRegisterOperandStops : Obligations.BadRegisterOperandStops :=
  fun _ s hbad => exec_of_badRegister hbad s

/-! ### What an instruction does to memory -/

/-- An instruction stores nothing, or it is PUSH or CALL and stores one byte below SP (R64). -/
theorem Effect.mem_cases {s t : State} {i : Instr} (h : Effect s i (.next t)) :
    t.mem = s.mem ∨
      (i.opcode = 0x45#8 ∨ i.opcode = 0x50#8) ∧ ∃ v, t.mem = (s.memWrite (s.sp - 1) v).mem := by
  cases h with
  | push r => exact .inr ⟨.inl rfl, _, rfl⟩
  | call r => exact .inr ⟨.inr rfl, _, rfl⟩
  | badRegister | ldi | prn | hlt | add | sub | mul | div | divByZero | pop | ret => exact .inl rfl

theorem step_mem_cases {s t : State} (h : step s = .next t) :
    t.mem = s.mem ∨
      (s.memRead s.pc = 0x45#8 ∨ s.memRead s.pc = 0x50#8) ∧ ∃ v, t.mem = (s.memWrite (s.sp - 1) v).mem := by
  obtain ⟨-, rfl⟩ | ⟨i, hf, heff⟩ := step_effect h
  · exact .inl rfl
  · exact opcode_eq_memRead_pc hf ▸ heff.mem_cases

theorem memRead_congr {s t : State} (h : t.mem = s.mem) (a : Byte) : t.memRead a = s.memRead a := by
  rw [State.memRead, State.memRead, h]

theorem step_memWf {s t : State} (hs : Memory.wf s.mem = true) (h : step s = .next t) : Memory.wf t.mem = true := by
  obtain hmem | ⟨-, v, hmem⟩ := step_mem_cases h
  · rwa [hmem]
  · rw [hmem]
    exact State.memWrite_wf hs ..

/-- Settles O38: any byte but the one below SP reads as before, and only PUSH and CALL store. -/
theorem memoryIsWrittenOnlyByPushAndCall : Obligations.MemoryIsWrittenOnlyByPushAndCall := by
  intro s t a h hne
  obtain hmem | ⟨hop, v, hmem⟩ := step_mem_cases h
  · exact absurd (memRead_congr hmem a) hne
  · refine ⟨?_, hop⟩
    by_contra ha
    exact hne ((memRead_congr hmem a).trans (State.memRead_memWrite_of_ne s v ha))

/-! ### The invariant -/

/-- The stop transition for the due cause makes the record that explains it. -/
theorem inv_stopWith {s : State} {c : StopCause} (hmem : Memory.wf s.mem = true) (hdue : dueStop s = some c) :
    Inv (s.stopWith c (s.memRead s.pc)) where
  memWf := hmem
  stopIffStopped := by simp
  stopExplained := by
    intro r hr
    rw [State.stopWith_stop] at hr
    cases hr
    exact
      { cause := by rw [dueStop_stopWith, hdue]
        opcode := by rw [fetchByte_zero, State.stopWith_memRead, State.stopWith_pc]
        atPc := rfl
        status := rfl }

/-- A RUNNING state that meets the invariant has no stop record. -/
theorem Inv.stop_eq_none {s : State} (h : Inv s) (hrun : s.run = .running) : s.stop = none := by
  have hiff := h.stopIffStopped
  simpa [hrun] using hiff

/-- Settles O17: memory stays canonical, a stop makes the record that explains it, and a step that goes on has none. -/
theorem stepKeepsTheInvariant : Obligations.StepKeepsTheInvariant := by
  intro s t hinv h
  obtain ⟨hrunning, -⟩ := step_cases h
  obtain ⟨c, hdue, rfl⟩ | ⟨-, hrun, hstop⟩ := step_dueStop_cases h
  · exact inv_stopWith hinv.memWf hdue
  · exact inv_of_running (step_memWf hinv.memWf h) (hrun.trans hrunning) (hstop.trans (hinv.stop_eq_none hrunning))

/-- Settles O2: construction's core is RUNNING with nothing listed in memory and no stop record. -/
theorem resetMeetsTheInvariant : Obligations.ResetMeetsTheInvariant :=
  inv_of_running State.reset_memWf rfl rfl

/-- Settles O4: launch tests the image's length first. -/
theorem launchRefusesALongImage : Obligations.LaunchRefusesALongImage :=
  fun _ hlong => if_neg (Nat.not_le_of_lt hlong)

/-! ### Which instruction a step runs (R97) -/

/-- Settles O11: what the list decoder finds the core's decoder fetches, and a running core runs what it fetches. -/
theorem stepRunsTheDecodedInstruction : Obligations.StepRunsTheDecodedInstruction := by
  intro s i hrun hdec
  have hf : s.fetch = some i := by
    rw [fetch_eq_decodeInstr]
    obtain hdec | ⟨rest, hdec⟩ := hdec
    · exact hdec
    · exact decodeInstr_of_decode hdec
  exact step_of_fetch_some hrun hf

/-- Addresses from the pc on are apart as long as they are fewer than 256. -/
theorem pcPlus_ne (pc : Byte) {k n : Nat} (hk : k < n) (hn : n < 256) : pcPlus pc k ≠ pcPlus pc n := by
  intro heq
  have hkn : (BitVec.ofNat 8 k).toNat = (BitVec.ofNat 8 n).toNat := congrArg BitVec.toNat (add_left_cancel heq)
  rw [BitVec.toNat_ofNat, BitVec.toNat_ofNat] at hkn
  omega

/-- Bytes stored at the pc read back. -/
theorem State.storeAtPc_memRead {s : State} (hs : Memory.wf s.mem = true) (byte : Nat → Byte) {n k : Nat} (hk : k < n)
    (hn : n ≤ 256) : (s.storeAtPc byte n).memRead (pcPlus s.pc k) = byte k := by
  induction n with
  | zero => omega
  | succ n ih =>
    rw [State.storeAtPc]
    obtain rfl | hlt := Nat.eq_or_lt_of_le (Nat.le_of_lt_succ hk)
    · exact State.memRead_memWrite_same (State.storeAtPc_wf hs byte k) ..
    · rw [State.memRead_memWrite_of_ne _ _ (pcPlus_ne s.pc hlt (by omega)), ih hlt (by omega)]

theorem State.withFetchWord_fetchByte {s : State} (hs : Memory.wf s.mem = true) (nbits w : Nat) {k : Nat} (hk : k < 3) :
    (s.withFetchWord nbits w).fetchByte k = tableByte nbits w k := by
  obtain ⟨-, hframe, -⟩ := State.storeAtPc_frame s (tableByte nbits w) 3
  have hpc : (s.withFetchWord nbits w).pc = s.pc := hframe
  rw [State.fetchByte, hpc]
  exact State.storeAtPc_memRead hs (tableByte nbits w) hk (by decide)

/-- Settles O18: the three bytes stored at the pc are the ones the fetch reads. -/
theorem fetchWordIsTheNextInstruction : Obligations.FetchWordIsTheNextInstruction := by
  intro s nbits w i hs hdec
  refine step_of_fetch_some rfl ?_
  have hbyte (k : Nat) (hk : k < 3) : (s.withFetchWord nbits w).fetchByte k = tableByte nbits w k :=
    State.withFetchWord_fetchByte hs nbits w hk
  rw [State.fetch, hbyte 0 (by decide), hbyte 1 (by decide), hbyte 2 (by decide)]
  exact hdec

end Sys2Proof.Machine

/-! ### Frames: what the operations of R14 leave unchanged -/

namespace Sys2Proof.Machine

theorem SameBut.refl (written : List Reg) (s : State) : SameBut written s s :=
  ⟨fun _ _ => rfl, rfl, rfl, rfl⟩

section
variable {written : List Reg} {stored : List Byte} {s t : State}

theorem SameBut.writeReg (h : SameBut written s t) {r : Reg} (hr : r ∈ written) (v : Byte) :
    SameBut written s (t.writeReg r v) where
  regs := fun r' hr' => by
    have hne : r' ≠ r := fun heq => hr' (heq ▸ hr)
    rw [State.readReg_writeReg_of_ne t v hne, h.regs r' hr']
  out := h.out
  run := h.run
  stop := h.stop

theorem SameBut.decSp (h : SameBut written s t) (hr : Reg.r7 ∈ written) : SameBut written s t.decSp :=
  h.writeReg hr _

theorem SameBut.incSp (h : SameBut written s t) (hr : Reg.r7 ∈ written) : SameBut written s t.incSp :=
  h.writeReg hr _

theorem SameBut.memWrite (h : SameBut written s t) (a v : Byte) : SameBut written s (t.memWrite a v) :=
  ⟨h.regs, h.out, h.run, h.stop⟩

theorem SameBut.setPc (h : SameBut written s t) (p : Byte) : SameBut written s (t.setPc p) :=
  ⟨h.regs, h.out, h.run, h.stop⟩

theorem SameBut.advancePc (h : SameBut written s t) (n : Nat) : SameBut written s (t.advancePc n) :=
  h.setPc _

theorem memSameBut_of_mem_eq (h : t.mem = s.mem) : MemSameBut stored s t :=
  fun a _ => memRead_congr h a

/-- A state whose memory is that of `s` with one byte stored. -/
theorem memSameBut_of_mem_eq_memWrite {a v : Byte} (h : t.mem = (s.memWrite a v).mem) : MemSameBut [a] s t := by
  intro a' ha'
  have hne : a' ≠ a := by simpa using ha'
  rw [memRead_congr h, State.memRead_memWrite_of_ne s v hne]

end

/-! ### LDI, PRN, HLT and the trace port (40_ldi_prn_hlt.md R130 to R133, 60_exceptions.md R280) -/

/-- Settles O19: LDI writes its register and advances. -/
theorem ldiLoadsTheImmediate : Obligations.LdiLoadsTheImmediate := by
  refine fun r imm s => ⟨_, execLdi_byte s r imm, ?reg, pcPlus_three s.pc, ?frame, memSameBut_of_mem_eq rfl⟩
  case reg => rw [State.advancePc_readReg, State.readReg_writeReg_same]
  case frame => exact ((SameBut.refl _ s).writeReg (by simp) imm).advancePc 3

/-- Settles O20: PRN emits its register and advances. -/
theorem prnAppendsTheRegister : Obligations.PrnAppendsTheRegister :=
  fun r s => ⟨_, execPrn_byte s r, State.emit_out .., pcPlus_two s.pc, fun _ => rfl, rfl, rfl,
    memSameBut_of_mem_eq rfl⟩

/-- Settles O21: HLT is the stop transition for HALT. -/
theorem hltStopsWithStatusZero : Obligations.HltStopsWithStatusZero :=
  fun _ => rfl

/-- Settles O44: the trace tuple's addresses are written with the pc's own addition. -/
theorem tracePortReadsTheInstructionsBytes : Obligations.TracePortReadsTheInstructionsBytes := by
  intro s
  rw [State.trace, State.traceTuple, pcPlus_one, pcPlus_two]

/-- The host prints the values of the log one after another (R133, R308). -/
theorem renderOut_append (out out' : List Byte) : renderOut (out ++ out') = renderOut out ++ renderOut out' := by
  rw [renderOut, List.map_append, String.join_append, renderOut, renderOut]

theorem renderOut_singleton (v : Byte) : renderOut [v] = toString v.toNat ++ "\n" := by
  rw [renderOut, List.map_singleton, String.join_cons, String.join_nil, String.append_empty, renderValue]

/-- Settles O22: PRN finds in its register the value LDI wrote. -/
theorem ldiThenPrnPrintsTheImmediate : Obligations.LdiThenPrnPrintsTheImmediate := by
  intro r v s
  obtain ⟨t, ht, htr, -, htframe, -⟩ := ldiLoadsTheImmediate r v s
  obtain ⟨u, hu, hout, -⟩ := prnAppendsTheRegister r t
  have huout : u.out = s.out ++ [v] := by rw [hout, htr, htframe.out]
  exact ⟨t, u, ht, hu, huout, by rw [huout, renderOut_append, renderOut_singleton]⟩

/-! ### The ALU in two's complement, and the operations it supports (41_alu.md R160 to R168) -/

/-- The result of an ALU operation that answers `v`, read in two's complement. -/
theorem exists_next_toInt {s : State} {ra : Reg} {v : Byte} {z : Int} {o : Result}
    (ho : o = .next ((s.writeReg ra v).advancePc 3)) (hv : v.toInt = z) :
    ∃ t, o = .next t ∧ (t.readReg ra).toInt = z :=
  ⟨_, ho, by rw [State.advancePc_readReg, State.readReg_writeReg_same, hv]⟩

/-- Settles O26: addition, subtraction and multiplication of words are those of the integers modulo 256, whichever way the
words are read; division is not. -/
theorem aluUnderTwosComplement : Obligations.AluUnderTwosComplement := by
  refine fun ra rb s => ⟨?add, ?sub, ?mul, fun hra hrb => ?div⟩
  case add => exact exists_next_toInt (execAdd_byte s ra rb) (BitVec.toInt_add ..)
  case sub => exact exists_next_toInt (execSub_byte s ra rb) BitVec.toInt_sub
  case mul => exact exists_next_toInt (execMul_byte s ra rb) (BitVec.toInt_mul ..)
  case div =>
    have hdiv : s.readReg rb ≠ 0#8 := by rw [hrb]; decide
    refine ⟨_, execDiv_byte s ra rb hdiv, ?_⟩
    rw [State.advancePc_readReg, State.readReg_writeReg_same, hra, hrb]
    decide

theorem AluOp.ofSelector_eq_none {sel : BitVec 4} (h : sel ∉ [0b0000#4, 0b0001#4, 0b0010#4, 0b0011#4]) :
    AluOp.ofSelector sel = none := by
  simp only [List.mem_cons, List.not_mem_nil, or_false, not_or] at h
  obtain ⟨hadd, hsub, hmul, hdiv⟩ := h
  simp only [AluOp.ofSelector, hadd, hsub, hmul, hdiv, if_false]

theorem AluOp.exists_ofSelector {sel : BitVec 4} (h : sel ∈ [0b0000#4, 0b0001#4, 0b0010#4, 0b0011#4]) :
    ∃ op, AluOp.ofSelector sel = some op := by
  have hsome : ∀ sel ∈ [0b0000#4, 0b0001#4, 0b0010#4, 0b0011#4], (AluOp.ofSelector sel).isSome = true := by decide
  exact Option.isSome_iff_exists.1 (hsome sel h)

/-- A selector outside the four stops before any result is computed (R168, R268). -/
theorem alu_byte_unsupported {opcode : Byte} (h : AluOp.ofSelector (opcodeI opcode) = none) (s : State) (ra rb : Reg) :
    alu opcode ra.byte rb.byte s = .next (s.stopWith .unsupportedAlu opcode) := by
  simp [alu, withRegs, h]

/-- A supported operation keeps the stop record or stops for a zero divisor. -/
theorem alu_byte_stop_cases {opcode : Byte} {op : AluOp} (h : AluOp.ofSelector (opcodeI opcode) = some op) (s : State)
    (ra rb : Reg) :
    ∃ t, alu opcode ra.byte rb.byte s = .next t ∧ (t.stop = s.stop ∨ t = s.stopWith .divByZero opcode) := by
  rw [alu_byte s ra rb h]
  cases aluResult op (s.readReg ra) (s.readReg rb) with
  | none => exact ⟨_, rfl, .inr rfl⟩
  | some v => exact ⟨_, rfl, .inl rfl⟩

/-- Field `I` of an ALU opcode selects one of the four operations (R91). -/
theorem opcodeI_mem_of_opcodeA {m : Mnemonic} (h : opcodeA m.opcode = true) :
    opcodeI m.opcode ∈ [0b0000#4, 0b0001#4, 0b0010#4, 0b0011#4] := by
  cases m with
  | add | sub | mul | div => decide
  | ldi | prn | hlt | push | pop | call | ret => exact absurd h (by decide)

/-- Settles O27: the selector picks an operation exactly when it is one of the four. -/
theorem aluSupportsExactlyFourOperations : Obligations.AluSupportsExactlyFourOperations := by
  refine ⟨fun op a b i hdec hA => ?decoder, fun opcode ra rb s => ⟨fun hsel => ?outside, fun hsel hstop => ?inside⟩⟩
  case decoder =>
    obtain ⟨m, rfl, -⟩ := decodeInstr_sound hdec
    exact opcodeI_mem_of_opcodeA hA
  case outside =>
    exact ⟨_, _, alu_byte_unsupported (AluOp.ofSelector_eq_none hsel) s ra rb, State.stopWith_run ..,
      State.stopWith_stop .., rfl, StopCause.status_ne_zero (c := .unsupportedAlu) (by decide)⟩
  case inside =>
    obtain ⟨op, hop⟩ := AluOp.exists_ofSelector hsel
    obtain ⟨t, ht, hsame | rfl⟩ := alu_byte_stop_cases hop s ra rb
    · exact ⟨t, ht, fun rec hrec => by simp [hsame, hstop] at hrec⟩
    · refine ⟨_, ht, fun rec hrec => ?_⟩
      rw [State.stopWith_stop] at hrec
      cases hrec
      exact nofun

end Sys2Proof.Machine

/-! ### The stack (42_stack.md R200 to R204, 43_call_return.md R230 and R231) -/

namespace Sys2Proof.Machine

/-! ### One byte pushed: what PUSH and CALL share -/

/-- The operand register as PUSH and CALL read it, after the decrement (R15, D5). -/
theorem State.decSp_readReg (s : State) (r : Reg) :
    s.decSp.readReg r = if r = .r7 then s.readReg .r7 - 1 else s.readReg r := by
  split
  · next h => rw [h, State.decSp_sp]
  · next h => exact State.decSp_readReg_of_ne s h

theorem sameBut_decSp_memWrite (s : State) (a v : Byte) : SameBut [.r7] s (s.decSp.memWrite a v) :=
  ((SameBut.refl _ s).decSp (by simp)).memWrite a v

/-- The cell SP comes down to holds the byte pushed. -/
theorem memRead_decSp_memWrite {s : State} (hs : Memory.wf s.mem = true) (v : Byte) :
    (s.decSp.memWrite (s.sp - 1) v).memRead (s.readReg .r7 - 1) = v :=
  State.memRead_memWrite_same (s := s.decSp) hs ..

/-- Settles O29: the decrement, one store and the advance. -/
theorem pushStoresBelowSp : Obligations.PushStoresBelowSp := by
  intro r s hs
  refine ⟨_, execPush_byte s r, ?sp, ?cell, ?pc, ?frame, memSameBut_of_mem_eq_memWrite rfl⟩
  case sp => rw [State.advancePc_readReg, State.memWrite_readReg, State.decSp_sp]
  case cell => rw [State.advancePc_memRead, memRead_decSp_memWrite hs, State.decSp_readReg]
  case pc => exact pcPlus_two s.pc
  case frame => exact (sameBut_decSp_memWrite s _ _).advancePc 2

/-- Settles O31: the decrement, one store and the jump. -/
theorem callPushesReturnAddressAndJumps : Obligations.CallPushesReturnAddressAndJumps := by
  intro r s hs
  refine ⟨_, execCall_byte s r, ?sp, ?cell, ?pc, ?frame, memSameBut_of_mem_eq_memWrite rfl⟩
  case sp => rw [State.setPc_readReg, State.memWrite_readReg, State.decSp_sp]
  case cell => rw [State.setPc_memRead, memRead_decSp_memWrite hs, pcPlus_two]
  case pc => rw [State.setPc_pc, State.decSp_readReg]
  case frame => exact (sameBut_decSp_memWrite s _ _).setPc _

/-- Writing a register and incrementing SP, all POP does besides its advance (R201), leaves the others as they were. -/
theorem sameBut_pop (s : State) (r : Reg) (v : Byte) : SameBut [r, .r7] s ((s.writeReg r v).incSp.advancePc 2) :=
  (((SameBut.refl _ s).writeReg (by simp) v).incSp (by simp)).advancePc 2

/-- Settles O30: the load, the increment, which sees the load where the register is SP, and the advance. -/
theorem popLoadsFromSp : Obligations.PopLoadsFromSp := by
  intro r s
  refine ⟨_, execPop_byte s r, fun hr => ⟨?reg, ?sp⟩, fun hr => ?sp7, ?pc, ?frame, memSameBut_of_mem_eq rfl⟩
  case reg => rw [State.advancePc_readReg, State.incSp_readReg_of_ne _ hr, State.readReg_writeReg_same]
  case sp => rw [State.advancePc_readReg, State.incSp_sp, State.readReg_writeReg_of_ne _ _ (Ne.symm hr)]
  case sp7 =>
    subst hr
    rw [State.advancePc_readReg, State.incSp_sp, State.readReg_writeReg_same]
  case pc => exact pcPlus_two s.pc
  case frame => exact sameBut_pop s r _

/-! ### Stack discipline (R203, R204, R233) -/

/-- Settles O33: POP finds the byte PUSH stored, at the SP it left. -/
theorem pushThenPopCarriesTheValue : Obligations.PushThenPopCarriesTheValue := by
  intro r r' s hs hr hr'
  obtain ⟨t, ht, htsp, htcell, htpc, -, -⟩ := pushStoresBelowSp r s hs
  obtain ⟨u, hu, hpop, -, hupc, -, humem⟩ := popLoadsFromSp r' t
  obtain ⟨hureg, husp⟩ := hpop hr'
  rw [if_neg hr] at htcell
  refine ⟨t, u, ht, hu, ?value, ?sp, ?cell, ?pc⟩
  case value => rw [hureg, htsp, htcell]
  case sp => rw [husp, htsp, BitVec.sub_add_cancel]
  case cell => rw [humem _ List.not_mem_nil, htcell]
  case pc => rw [hupc, htpc, BitVec.add_assoc]; rfl

/-- Settles O34: SP is stored after its decrement, and loaded before its increment. -/
theorem pushThenPopThroughRegisterSeven : Obligations.PushThenPopThroughRegisterSeven := by
  refine fun r s hs hr => ⟨?pushSp, ?popSp⟩
  case pushSp =>
    obtain ⟨t, ht, htsp, htcell, -⟩ := pushStoresBelowSp .r7 s hs
    obtain ⟨u, hu, hpop, -⟩ := popLoadsFromSp r t
    obtain ⟨hureg, husp⟩ := hpop hr
    rw [if_pos rfl] at htcell
    exact ⟨t, u, ht, hu, by rw [hureg, htsp, htcell], by rw [husp, htsp, BitVec.sub_add_cancel]⟩
  case popSp =>
    obtain ⟨t, ht, htsp, htcell, -⟩ := pushStoresBelowSp r s hs
    obtain ⟨u, hu, -, hpop, -⟩ := popLoadsFromSp .r7 t
    rw [if_neg hr] at htcell
    exact ⟨t, u, ht, hu, by rw [hpop rfl, htsp, htcell]⟩

/-- RET takes the pc from the cell at SP and undoes one decrement of SP (R231). -/
theorem exists_ret {s : State} {sp a : Byte} (hsp : s.readReg .r7 = sp - 1) (hcell : s.memRead (sp - 1) = a) :
    ∃ t, exec .ret s = .next t ∧ t.pc = a ∧ t.readReg .r7 = sp := by
  obtain ⟨-, hret⟩ := retPopsThePc
  obtain ⟨t, ht, hpc, htsp, -⟩ := hret s
  exact ⟨t, ht, by rw [hpc, hsp, hcell], by rw [htsp, hsp, BitVec.sub_add_cancel]⟩

/-- Settles O35: RET depends on SP and the byte at SP alone. -/
theorem retReturnsToTheCaller : Obligations.RetReturnsToTheCaller := by
  intro r s hs
  obtain ⟨t, ht, htsp, htcell, -⟩ := callPushesReturnAddressAndJumps r s hs
  refine ⟨t, ht, fun u husp hucell => ?_⟩
  rw [husp, htsp, htcell] at hucell
  exact exists_ret (husp.trans htsp) hucell

/-- Settles O36: PUSH and CALL leave the byte where POP and RET take it. -/
theorem pushPopCallRetShareOneStack : Obligations.PushPopCallRetShareOneStack := by
  refine fun r r' s hs hr hr' => ⟨?pushRet, ?callPop⟩
  case pushRet =>
    obtain ⟨t, ht, htsp, htcell, -⟩ := pushStoresBelowSp r s hs
    rw [if_neg hr] at htcell
    obtain ⟨u, hu⟩ := exists_ret htsp htcell
    exact ⟨t, u, ht, hu⟩
  case callPop =>
    obtain ⟨t, ht, htsp, htcell, htpc, -⟩ := callPushesReturnAddressAndJumps r s hs
    obtain ⟨u, hu, hpop, -, hupc, -⟩ := popLoadsFromSp r' t
    obtain ⟨hureg, husp⟩ := hpop hr'
    rw [if_neg hr] at htpc
    exact ⟨t, u, ht, hu, by rw [hureg, htsp, htcell], by rw [husp, htsp, BitVec.sub_add_cancel], by rw [hupc, htpc]⟩

end Sys2Proof.Machine

/-! ### The whole machine: register writes, control transfer and self-modification (10_state.md R32, 43_call_return.md R232) -/

namespace Sys2Proof.Machine

/-! ### The operand bytes of the instruction at the pc -/

/-- The first operand of the instruction at the pc is the byte after the pc (R90, R94). -/
theorem eq_memRead_of_operands {s : State} {i : Instr} {a : Byte} {rest : List Byte} (hf : s.fetch = some i)
    (hops : i.operands = a :: rest) : s.memRead (s.pc + 1) = a := by
  rw [fetch_eq_decodeInstr] at hf
  obtain ⟨m, -, rfl⟩ := decodeInstr_sound hf
  have hprefix : a :: rest <+: [s.memRead (s.pc + 1), s.memRead (s.pc + 2)] := by
    rw [← hops, Mnemonic.operands_instr]
    exact List.take_prefix ..
  obtain ⟨heq, -⟩ := List.cons_prefix_cons.1 hprefix
  exact heq.symm

/-- A mnemonic's opcode at the pc makes its instruction the one fetched. -/
theorem fetch_of_opcode {s : State} {m : Mnemonic} (h : s.memRead s.pc = m.opcode) :
    s.fetch = some (m.instr (s.memRead (s.pc + 1)) (s.memRead (s.pc + 2))) := by
  rw [fetch_eq_decodeInstr, h, decodeInstr_opcode]

/-! ### Register writes (R32) -/

theorem SameBut.mem_of_readReg_ne {written : List Reg} {s t : State} {r : Reg} (h : SameBut written s t)
    (hne : t.readReg r ≠ s.readReg r) : r ∈ written := by
  by_contra hr
  exact hne (h.regs r hr)

/-- A register an instruction changes is SP, in a stack instruction, or its destination register, the first operand. -/
theorem Effect.cases_of_readReg_ne {s t : State} {i : Instr} {r : Reg} (h : Effect s i (.next t))
    (hne : t.readReg r ≠ s.readReg r) :
    (r = .r7 ∧ i.opcode ∈ [0x45#8, 0x46#8, 0x50#8, 0x11#8]) ∨
      ((∃ rest, i.operands = r.byte :: rest) ∧ i.opcode ∈ [0x82#8, 0xA0#8, 0xA1#8, 0xA2#8, 0xA3#8, 0x46#8]) := by
  cases h with
  | badRegister | prn | hlt | divByZero => exact absurd rfl hne
  | ldi ra _ | add ra _ | sub ra _ | mul ra _ | div ra _ _ =>
    obtain rfl := List.mem_singleton.1 ((aluFrame_writeReg_advancePc ra s _).others.mem_of_readReg_ne hne)
    exact .inr ⟨⟨_, rfl⟩, by simp⟩
  | push ra =>
    have hr := ((sameBut_decSp_memWrite s _ _).advancePc 2).mem_of_readReg_ne hne
    exact .inl ⟨List.mem_singleton.1 hr, by simp⟩
  | call ra =>
    have hr := ((sameBut_decSp_memWrite s _ _).setPc _).mem_of_readReg_ne hne
    exact .inl ⟨List.mem_singleton.1 hr, by simp⟩
  | ret =>
    have hr := (sameBut_setPc_incSp s _).mem_of_readReg_ne hne
    exact .inl ⟨List.mem_singleton.1 hr, by simp⟩
  | pop ra =>
    obtain rfl | rfl : r = ra ∨ r = .r7 := by simpa using (sameBut_pop s ra _).mem_of_readReg_ne hne
    · exact .inr ⟨⟨_, rfl⟩, by simp⟩
    · exact .inl ⟨rfl, by simp⟩

/-- Settles O39: the instruction's opcode is the byte at the pc and its first operand the byte after it. -/
theorem registersAreWrittenAsTheTableSays : Obligations.RegistersAreWrittenAsTheTableSays := by
  intro s t r h hne
  obtain ⟨-, rfl⟩ | ⟨i, hf, heff⟩ := step_effect h
  · exact absurd rfl hne
  · rw [← opcode_eq_memRead_pc hf]
    obtain hsp | ⟨⟨rest, hops⟩, hdest⟩ := heff.cases_of_readReg_ne hne
    · exact .inl hsp
    · exact .inr ⟨eq_memRead_of_operands hf hops, hdest⟩

/-! ### Control transfer (R98, R232) -/

/-- An instruction that goes on and is no CALL or RET advances past its own bytes. -/
theorem Effect.pc_of_running {s t : State} {i : Instr} (h : Effect s i (.next t)) (hrun : t.run = .running)
    (hcall : i.opcode ≠ 0x50#8) (hret : i.opcode ≠ 0x11#8) :
    t.pc = s.pc + BitVec.ofNat 8 (instrLength i.opcode) := by
  cases h with
  | badRegister | hlt | divByZero => simp at hrun
  | call r => exact absurd rfl hcall
  | ret => exact absurd rfl hret
  | ldi | prn | add | sub | mul | div | push | pop => simp [pcPlus]

/-- Settles O40: advancing is in every meaning but those of CALL and RET, and a step that stops is the stop transition. -/
theorem onlyCallAndRetTransferControl : Obligations.OnlyCallAndRetTransferControl := by
  refine fun s t h => ⟨fun hrun hcall hret => ?advance, fun hstop => ?stop⟩
  case advance =>
    obtain ⟨-, rfl⟩ | ⟨i, hf, heff⟩ := step_effect h
    · cases hrun
    · rw [← opcode_eq_memRead_pc hf] at hcall hret ⊢
      exact heff.pc_of_running hrun hcall hret
  case stop =>
    obtain ⟨c, -, rfl⟩ := eq_stopWith_of_step_stopped h hstop
    exact State.stopWith_pc ..

/-! ### Self-modification (R74, D10) -/

theorem step_of_opcode {s : State} {m : Mnemonic} (hrun : s.run = .running) (h : s.memRead s.pc = m.opcode) :
    step s = exec (m.instr (s.memRead (s.pc + 1)) (s.memRead (s.pc + 2))) s :=
  step_of_fetch_some hrun (fetch_of_opcode h)

/-- Settles O41: the cell PUSH stored in is the next state's opcode byte. -/
theorem nextFetchSeesThePushedByte : Obligations.NextFetchSeesThePushedByte := by
  intro s r hs hrun hr hop ha hsp
  obtain ⟨t, ht, -, hcell, hpc, hframe, -⟩ := pushStoresBelowSp r s hs
  have hstep : step s = .next t := by rw [step_of_opcode (m := .push) hrun hop, ha, Mnemonic.instr, ht]
  have htrun : t.run = .running := hframe.run.trans hrun
  rw [hsp, if_neg hr, ← hpc] at hcell
  refine ⟨t, hstep, htrun, hpc, hcell, fun hv => ?_⟩
  have hhlt : t.memRead t.pc = Mnemonic.hlt.opcode := hcell.trans hv
  refine ⟨_, (step_of_opcode htrun hhlt).trans (hltStopsWithStatusZero t), ?_⟩
  rw [hpc]

/-! ### A CALL to its own address (R230, log 16) -/

/-- One more turn of a CALL to its own address, while the push does not reach the CALL's two bytes. -/
theorem SelfCallAt.exists_next {r : Reg} {s : State} (h : SelfCallAt r s) (hop : s.readReg .r7 ≠ s.pc + 1)
    (harg : s.readReg .r7 ≠ s.pc + 2) :
    ∃ t, step s = .next t ∧ SelfCallAt r t ∧ t.pc = s.pc ∧ t.readReg .r7 = s.readReg .r7 - 1 := by
  obtain ⟨t, ht, hsp, -, htpc, hframe, hmem⟩ := callPushesReturnAddressAndJumps r s h.memWf
  have hstep : step s = .next t := by
    rw [step_of_opcode (m := .call) h.running h.opcode, h.operand, Mnemonic.instr, ht]
  have hpc : t.pc = s.pc := by rw [htpc, if_neg h.notSp, h.target]
  have hpush : s.pc ≠ s.readReg .r7 - 1 ∧ s.pc + 1 ≠ s.readReg .r7 - 1 := by
    constructor <;> bv_omega
  refine ⟨t, hstep, ?_, hpc, hsp⟩
  exact
    { memWf := step_memWf h.memWf hstep
      running := hframe.run.trans h.running
      notSp := h.notSp
      opcode := by rw [hpc, hmem _ (by simpa using hpush.1), h.opcode]
      operand := by rw [hpc, hmem _ (by simpa using hpush.2), h.operand]
      target := by rw [hframe.regs r (by simpa using h.notSp), h.target, hpc] }

/-- Settles O43: by induction on the steps; SP comes one cell nearer to the CALL's operand byte at each. -/
theorem selfCallRunsUntilTheStackReachesIt : Obligations.SelfCallRunsUntilTheStackReachesIt := by
  intro r s n h hop hn
  induction n generalizing s with
  | zero => exact ⟨s, core_run_zero s, h.running, rfl, (BitVec.sub_zero _).symm⟩
  | succ n ih =>
    have harg : s.readReg .r7 ≠ s.pc + 2 := by
      intro heq
      rw [heq, BitVec.sub_self] at hn
      simp at hn
    obtain ⟨t, hstep, ht, hpc, hsp⟩ := h.exists_next hop harg
    obtain ⟨u, hu, hurun, hupc, husp⟩ := ih t ht (by rw [hpc, hsp]; bv_omega) (by rw [hpc, hsp]; bv_omega)
    refine ⟨u, (core_run_succ n hstep).trans hu, hurun, hupc.trans hpc, ?_⟩
    rw [husp, hsp]
    bv_omega

/-- CALL R0 at 6, with 6 in R0 and SP at 8: the next push goes to the CALL's operand byte. -/
def selfCallBelowSp : State where
  regs := ⟨6, 0, 0, 0, 0, 0, 0, 8⟩
  pc := 6
  mem := [(6, 0x50#8)]
  run := .running
  out := []
  stop := none

theorem selfCallAt_selfCallBelowSp : SelfCallAt .r0 selfCallBelowSp :=
  ⟨by decide, by decide, by decide, by decide, by decide, by decide⟩

/-- The second fetch sees the return address 8 as the operand byte, which names no register. -/
theorem selfCallBelowSp_stops :
    (nextState (Sys2Proof.core.run 2 selfCallBelowSp)).map (·.run) = some .stopped := by
  decide

/-- Refutes O42: with CALL R0 at 6 and SP at 8 the first push overwrites the CALL's operand byte, and the second step stops
with BAD_REGISTER. -/
theorem not_selfCallNeverStops : ¬ Obligations.SelfCallNeverStops := by
  intro h
  obtain ⟨t, ht, hrun⟩ := h .r0 selfCallBelowSp 2 selfCallAt_selfCallBelowSp
  have hstop := selfCallBelowSp_stops
  rw [ht] at hstop
  simp [nextState, hrun] at hstop

end Sys2Proof.Machine
